-- ==== Sys2Proof/Config.lean ====
section
/-!
DEFINITION. What the implementation fixes: the parameters of 00_scope.md rule R6, under the spec's own names.
"None of them is open" (R6), and no behaviour is left as a parameter (93_implementation_defined.md), so there is no
free value here and nothing opaque.
-/

namespace Sys2Proof.Config

/-- `NREG`: general registers, indices 0 to 7 (R6, R20). -/
abbrev nreg : Nat := 8

/-- `XLEN`: register width in bits (R6; decision D1). -/
abbrev xlen : Nat := 8

/-- `SP_INDEX`: the register that is the stack pointer (R6, R22). -/
abbrev spIndex : Nat := 7

/-- `SP_RESET`: the stack pointer after reset (R6, R33). -/
abbrev spReset : BitVec 8 := 0xF4#8

/-- `MEMSIZE`: memory cells of 8 bits, addresses 0 to 255 (R6, R40). -/
abbrev memSize : Nat := 256

/-- `AWIDTH`: data address width in bits (R6). -/
abbrev awidth : Nat := 8

/-- `PCWIDTH`: program counter width in bits (R6, R23; decision D3). -/
abbrev pcWidth : Nat := 9

/-- `PC_RESET`: the program counter after reset (R6, R33). -/
abbrev pcReset : BitVec 9 := 0#9

/-- `RET_ADJUST`: what RET adds to the popped pc (R6, R131; conflict C1). -/
abbrev retAdjust : BitVec 9 := 2#9

/-- `LOAD_BASE`: where the program image starts (R6, R163). -/
abbrev loadBase : Nat := 0

/-- `ILEN`: the longest instruction in bytes (R6, R60). -/
abbrev maxIlen : Nat := 3

end Sys2Proof.Config
end

