-- ==== Sys2Proof/Word.lean ====
section
/-!
DEFINITION. The machine's words. Every register, memory cell, operand byte and SP value is an unsigned 8-bit integer,
and the pc is an unsigned 9-bit integer (00_scope.md rule R8).
-/

namespace Sys2Proof

/-- A register value, a memory cell, an operand byte or a data address: 8 bits, unsigned (R8, R40). -/
abbrev Byte := BitVec 8

/-- A program counter value, or an address as the fault record holds it: 9 bits, unsigned (R23, R27). -/
abbrev PcWord := BitVec 9

/-- A register number that has passed the register check, 0 to 7 (R21). -/
abbrev Reg := Fin 8

/-- The widths above are the parameters of R6. -/
theorem word_widths :
    Byte = BitVec Config.xlen ∧ Byte = BitVec Config.awidth ∧ PcWord = BitVec Config.pcWidth ∧ Reg = Fin Config.nreg :=
  ⟨rfl, rfl, rfl, rfl⟩

end Sys2Proof
end

