-- ==== Sys2Proof/Syntax.lean ====
section
/-!
DEFINITION. The nine instructions (30_encoding.md rule R61), one constructor per row of spec/opcode_table.json.
A register operand is the WHOLE operand byte (R21, R65): values 8 to 255 are no encoding error (R64), the register check
of the step faults on them (R84), so the syntax keeps the byte.
-/

namespace Sys2Proof

/-- An instruction with its latched operand bytes (30_encoding.md rules R60, R61; latches: 40_engine.md rule R82). -/
inductive Instr where
  /-- HLT, halt (R86). -/
  | hlt
  /-- LDI reg, imm: load immediate (R100). -/
  | ldi (reg imm : Byte)
  /-- PRN reg: output a register (R101). -/
  | prn (reg : Byte)
  /-- ADD regA, regB (R111). -/
  | add (regA regB : Byte)
  /-- MLT regA, regB (R112). -/
  | mlt (regA regB : Byte)
  /-- PSH reg: push a register (R122). -/
  | psh (reg : Byte)
  /-- POP reg: pop into a register (R123). -/
  | pop (reg : Byte)
  /-- CLL reg: call through a register (R130). -/
  | cll (reg : Byte)
  /-- RET: return (R131). -/
  | ret
  deriving DecidableEq, Repr

end Sys2Proof
end

