-- ==== Sys2Proof/WellFormed.lean ====
section
/-!
DEFINITION. Which instructions are well formed: those the assembly syntax of 30_encoding.md rule R68 can write, whose
register operands are r0 to r7. An ill-formed instruction still encodes, decodes and executes: its register check raises
OutOfBounds(REGISTER, index) (10_state.md rule R21).
-/

namespace Sys2Proof

/-- A register operand names one of the eight registers (R21, R65, R68). -/
abbrev IsRegIndex (b : Byte) : Prop := b.toNat < Config.nreg

/-- The operands that are register indices (`REGOPS` of R82, R84), operand1 before operand2. -/
def Instr.regOperands : Instr → List Byte
  | .hlt => []
  | .ldi reg _ => [reg]
  | .prn reg => [reg]
  | .add regA regB => [regA, regB]
  | .mlt regA regB => [regA, regB]
  | .psh reg => [reg]
  | .pop reg => [reg]
  | .cll reg => [reg]
  | .ret => []

/-- Every register operand is in 0..7; LDI's immediate may be any byte (R64, R84). -/
abbrev Instr.WellFormed (i : Instr) : Prop := ∀ b ∈ i.regOperands, IsRegIndex b

end Sys2Proof
end

