-- ==== Sys2Proof/Decode.lean ====
section
/-!
DEFINITION. The opcode map, the decoder, then the encoder (30_encoding.md). Decoding is an exact match of the whole opcode
byte (R62); an instruction's length and operand kinds come from its row, never from a bit field (R62, R67).
-/

namespace Sys2Proof

/-- The nine opcodes of R61. -/
inductive Opcode where
  | hlt | ldi | prn | add | mlt | psh | pop | cll | ret
  deriving DecidableEq, Repr

/-- `OPCODES`: the opcode a byte selects, or none where the byte is illegal (R61, R62, R63). -/
def opcodeOf (b : Byte) : Option Opcode :=
  match b with
  | 0x01#8 => some .hlt
  | 0x82#8 => some .ldi
  | 0x47#8 => some .prn
  | 0xA0#8 => some .add
  | 0xA2#8 => some .mlt
  | 0x45#8 => some .psh
  | 0x46#8 => some .pop
  | 0x50#8 => some .cll
  | 0x11#8 => some .ret
  | _ => none

/-- `NOPS(op)`: how many operand bytes follow the opcode (R61, R82). -/
def nops : Opcode → Nat
  | .hlt => 0
  | .ldi => 2
  | .prn => 1
  | .add => 2
  | .mlt => 2
  | .psh => 1
  | .pop => 1
  | .cll => 1
  | .ret => 0

/-- The whole length in bytes, from the opcode alone (R60, R67). -/
def opcodeLength (op : Opcode) : Nat := 1 + nops op

/-- An instruction without operand bytes (format F0). -/
def withNone (i : Instr) : List Byte → Option Instr
  | [] => some i
  | _ :: _ => none

/-- An instruction with one operand byte (format F1R). -/
def withOne (mk : Byte → Instr) : List Byte → Option Instr
  | [a] => some (mk a)
  | _ => none

/-- An instruction with two operand bytes, operand1 first (formats F2RR and F2RI). -/
def withTwo (mk : Byte → Byte → Instr) : List Byte → Option Instr
  | [a, b] => some (mk a b)
  | _ => none

/-- The instruction an opcode makes with its operand bytes, operand1 first (R60). `none` where the number of operand
bytes is not the opcode's. -/
def withOperands (op : Opcode) (bs : List Byte) : Option Instr :=
  match op with
  | .hlt => withNone .hlt bs
  | .ldi => withTwo .ldi bs
  | .prn => withOne .prn bs
  | .add => withTwo .add bs
  | .mlt => withTwo .mlt bs
  | .psh => withOne .psh bs
  | .pop => withOne .pop bs
  | .cll => withOne .cll bs
  | .ret => withNone .ret bs

/-- Why the decoder rejects a sequence of bytes. -/
inductive DecodeError where
  /-- There is no byte to decode. -/
  | noByte
  /-- The first byte is one of the 247 illegal opcode bytes (R63). -/
  | invalidOpcode (byte : Byte)
  /-- The sequence ends before the opcode's last operand byte. -/
  | operandMissing (op : Opcode)
  deriving DecidableEq, Repr

/-- Decode the instruction at the head of a sequence of bytes; the bytes after it come back unread (R61, R64). -/
def decode : List Byte → Except DecodeError (Instr × List Byte)
  | [] => .error .noByte
  | b :: rest =>
    match opcodeOf b with
    | none => .error (.invalidOpcode b)
    | some op =>
      match withOperands op (rest.take (nops op)) with
      | some i => .ok (i, rest.drop (nops op))
      | none => .error (.operandMissing op)

/-- The opcode byte of R61, written from the table's binary column. -/
def opcodeByte : Opcode → Byte
  | .hlt => 0b00000001#8
  | .ldi => 0b10000010#8
  | .prn => 0b01000111#8
  | .add => 0b10100000#8
  | .mlt => 0b10100010#8
  | .psh => 0b01000101#8
  | .pop => 0b01000110#8
  | .cll => 0b01010000#8
  | .ret => 0b00010001#8

/-- The opcode of an instruction. -/
def Instr.opcode : Instr → Opcode
  | .hlt => .hlt
  | .ldi _ _ => .ldi
  | .prn _ => .prn
  | .add _ _ => .add
  | .mlt _ _ => .mlt
  | .psh _ => .psh
  | .pop _ => .pop
  | .cll _ => .cll
  | .ret => .ret

/-- The operand bytes of an instruction, operand1 first (R60). -/
def Instr.operands : Instr → List Byte
  | .hlt => []
  | .ldi reg imm => [reg, imm]
  | .prn reg => [reg]
  | .add regA regB => [regA, regB]
  | .mlt regA regB => [regA, regB]
  | .psh reg => [reg]
  | .pop reg => [reg]
  | .cll reg => [reg]
  | .ret => []

/-- The encoder: the opcode byte, then the operand bytes at ascending addresses (R60, R68). -/
def encode (i : Instr) : List Byte := opcodeByte i.opcode :: i.operands

/-- The bytes of an instruction whose low `nbits` bits are `w`, bit 0 the least significant bit of the first byte; every
bit above `nbits` is 0, up to the longest instruction of 3 bytes (R60). -/
def tableBytes (nbits w : Nat) : List Byte :=
  let v := w % 2 ^ nbits
  [BitVec.ofNat 8 v, BitVec.ofNat 8 (v / 2 ^ 8), BitVec.ofNat 8 (v / 2 ^ 16)]

/-- What the decoder reads from the instruction whose bits are `w`, numbered as spec/opcode_table.json numbers them. -/
def decodeTableWord (nbits w : Nat) : Option Instr :=
  match decode (tableBytes nbits w) with
  | .ok (i, _) => some i
  | .error _ => none

end Sys2Proof
end

