-- ==== Sys2Proof/Machine/State.lean ====
section
/-!
DEFINITION. The architectural state, all of it (10_state.md rule R33), the reasons a step can stop, and the state right
after RESET. Plain data throughout.
-/

namespace Sys2Proof.Machine

/-- The run state (10_state.md rule R25; FAULTED: decision D7). HALTED and FAULTED are terminal. -/
inductive RunState where
  | running
  | halted
  | faulted
  deriving DecidableEq, Repr

/-- Which space an OutOfBounds index belongs to (10_state.md rule R27, field `space`). -/
inductive Space where
  | memory
  | register
  deriving DecidableEq, Repr

/-- A fatal error condition as it is raised, with its info (60_exceptions.md rule R140). -/
inductive FaultCause where
  /-- InvalidOpcode(pc, byte): the opcode fetch met a byte outside R61 (R141). -/
  | invalidOpcode (byte : Byte)
  /-- InvalidALUOperation: the ALU was given an operator tag outside ADD and MLT (R142). No instruction raises it. -/
  | invalidAluOperation
  /-- OutOfBounds(space, index): an address above 255 or a register index above 7 (R143). -/
  | outOfBounds (space : Space) (index : PcWord)
  deriving DecidableEq, Repr

/-- The fault record, a status register only the host reads (10_state.md rule R27). -/
structure FaultRecord where
  /-- 1 bit: a fault has been recorded. -/
  valid : Bool
  /-- 2 bits: the cause code of R140; 0 is no fault. -/
  code : BitVec 2
  /-- 1 bit: for OutOfBounds, 0 = MEMORY and 1 = REGISTER; otherwise 0. -/
  space : BitVec 1
  /-- 9 bits: the pc of the faulting instruction, or the fetch address. -/
  pc : PcWord
  /-- 9 bits: the opcode byte, the address, the index byte, or 0. -/
  info : PcWord
  deriving DecidableEq, Repr

/-- The fault record with all fields 0, its value at reset (R27, R33). -/
def FaultRecord.clear : FaultRecord :=
  { valid := false, code := 0, space := 0, pc := 0, info := 0 }

/-- The memory `M[0..255]` (10_state.md rule R29, 20_memory.md rule R40) as the list of its cells that do not hold the
unlisted value, by rising address. The canonical form is `Memory.wf` in Machine/Ops.lean. -/
structure Memory where
  cells : List Host.Cell
  deriving DecidableEq, Repr

/-- The complete architectural state (10_state.md rule R33), and the hold of 60_exceptions.md rule R152. -/
structure State where
  /-- `x[0..7]`; `x[7]` is the stack pointer (R20, R22). -/
  regs : Vector Byte 8
  /-- The program counter (R23). -/
  pc : PcWord
  /-- The memory (R29). -/
  mem : Memory
  /-- The run state, `state` in the spec (R25). -/
  run : RunState
  /-- The fault record (R27). -/
  fault : FaultRecord
  /-- The values emitted on the output port, oldest first (R30). -/
  out : List Byte
  /-- RESET "holds the core: no step is taken until START" (R152, R160); log entry 1. -/
  held : Bool
  deriving DecidableEq, Repr

/-- The reasons a step stops without a next state: THERE ARE NONE. Every fatal condition of the spec has a described
entry, FAULTED with its record (60_exceptions.md rule R144), so it is a next state; every execute phase completes
(40_engine.md rule R84), and a step that is not enabled leaves the state frozen (R87; log entries 2 and 12). Nobody raises a
Fault; safe, since no behaviour of the hardware is cut off by one. -/
inductive Fault where
  deriving DecidableEq, Repr

/-- Refusals. No step and no instruction answers with one; the last two are the host port's. -/
inductive Refusal where
  /-- An instruction without a meaning, by its mnemonic. No arm of exec raises it. Safe: a stop where hardware goes on. -/
  | notModelled (mnemonic : String)
  /-- Raised by the host port on an action outside its "when allowed" column (60_exceptions.md rule R152): the spec
  gives it no effect. Safe: the host "may not", and nothing is claimed of a host that does. -/
  | hostActionNotAllowed
  /-- Raised by the host's image load on more than 256 bytes, a ProgramLoadError (70_reset_and_hazards.md rule R163;
  decision D15). Safe: the spec refuses it too. -/
  | imageTooLong
  deriving DecidableEq, Repr

/-- The machine right after RESET (10_state.md rule R33, 70_reset_and_hazards.md rules R160 to R162): held, until START. -/
def State.reset : State :=
  { regs := #v[0, 0, 0, 0, 0, 0, 0, Config.spReset]
    pc := Config.pcReset
    mem := { cells := [] }
    run := .running
    fault := FaultRecord.clear
    out := []
    held := true }

end Sys2Proof.Machine
end

