-- ==== Sys2Proof/Machine/Ops.lean ====
section
/-!
DEFINITION. The named operations over memory, registers, pc and output, and fault entry: the pseudocode primitives of
00_scope.md rule R9.
-/

namespace Sys2Proof.Machine

/-! ### The memory as a list of cells -/

/-- What an unlisted cell reads as: 0, the reset contents the spec gives (10_state.md rule R33, 20_memory.md rule R47). -/
def Memory.unlisted : Byte := 0

/-- The canonical form: addresses strictly rising, all below 256, and no cell listed that holds the unlisted value. -/
abbrev Memory.wf (m : Memory) : Prop :=
  m.cells.Pairwise (fun c d => c.1 < d.1) ∧ ∀ c ∈ m.cells, c.1 < Config.memSize ∧ c.2 ≠ Memory.unlisted

/-- The byte a list of cells holds at an address. -/
def lookupCell : List Host.Cell → Nat → Byte
  | [], _ => Memory.unlisted
  | (b, w) :: rest, a => if b = a then w else lookupCell rest a

/-- The list of cells with one address set, in canonical form. -/
def storeCell : List Host.Cell → Nat → Byte → List Host.Cell
  | [], a, v => if v = Memory.unlisted then [] else [(a, v)]
  | (b, w) :: rest, a, v =>
    if a < b then (if v = Memory.unlisted then (b, w) :: rest else (a, v) :: (b, w) :: rest)
    else if a = b then (if v = Memory.unlisted then rest else (a, v) :: rest)
    else (b, w) :: storeCell rest a v

/-- The memory port's read: `M[addr]` (20_memory.md rule R41). -/
def Memory.read (m : Memory) (addr : Byte) : Byte := lookupCell m.cells addr.toNat

/-- The memory port's write: `M[addr] <- v` (20_memory.md rule R41). -/
def Memory.write (m : Memory) (addr v : Byte) : Memory := { cells := storeCell m.cells addr.toNat v }

/-- The bounds check the core makes before it issues an access (20_memory.md rules R41, R43): an address above 255
raises OutOfBounds(MEMORY, addr). -/
def checkAddr (addr : Nat) : Except FaultCause Byte :=
  if addr < Config.memSize then .ok (BitVec.ofNat 8 addr) else .error (.outOfBounds .memory (BitVec.ofNat 9 addr))

/-! ### Registers, memory, pc and output of a state -/

/-- `x[r]` read (R9, R20). -/
def State.x (s : State) (r : Reg) : Byte := s.regs[r]

/-- `x[r] <- v` (R9, R20). No register is hardwired. -/
def State.setX (s : State) (r : Reg) (v : Byte) : State := { s with regs := s.regs.set r v }

/-- The register that is the stack pointer (R22). -/
def spReg : Reg := 7

/-- `SP` read: another name for `x[7]` (R9, R22). -/
def State.sp (s : State) : Byte := s.x spReg

/-- `SP <- v`: another name for `x[7] <- v` (R9, R22). -/
def State.setSp (s : State) (v : Byte) : State := s.setX spReg v

/-- `MemRead(addr, 1)` for an address of 8 bits, which is always in range (R9, R41). -/
def State.memRead (s : State) (addr : Byte) : Byte := s.mem.read addr

/-- `MemWrite(addr, 1, v)` for an address of 8 bits, which is always in range (R9, R41). -/
def State.memWrite (s : State) (addr v : Byte) : State := { s with mem := s.mem.write addr v }

/-- `MemRead(addr, 1)` for any address, with its bounds check (R9, R43). -/
def State.memReadAt (s : State) (addr : Nat) : Except FaultCause Byte :=
  match checkAddr addr with
  | .ok a => .ok (s.memRead a)
  | .error e => .error e

/-- `MemWrite(addr, 1, v)` for any address, with its bounds check (R9, R43). -/
def State.memWriteAt (s : State) (addr : Nat) (v : Byte) : Except FaultCause State :=
  match checkAddr addr with
  | .ok a => .ok (s.memWrite a v)
  | .error e => .error e

/-- `pc <- target` (R9). -/
def State.setPc (s : State) (target : PcWord) : State := { s with pc := target }

/-- `Emit(v)`: `out <- out ++ [v]` (R9, R101). -/
def State.emit (s : State) (v : Byte) : State := { s with out := s.out ++ [v] }

/-- `state <- r` (R9, R25). -/
def State.setRun (s : State) (r : RunState) : State := { s with run := r }

/-- A byte as a pc value: a CLL target or a popped pc, 0 to 255 (R130, R131). -/
def pcOfByte (b : Byte) : PcWord := b.setWidth 9

/-- The byte CLL pushes for a pc. It is the pc itself wherever a CLL was fetched, since that pc is at most 254 (R130);
above 255 the model keeps the low 8 bits (log entry 3). -/
def byteOfPc (p : PcWord) : Byte := p.setWidth 8

/-- The PC update after an instruction's execute phase (40_engine.md rule R85): `pc + (1 + NOPS(op))`, not truncated to 8
bits; none for CLL and RET, which have set the pc, and none for HLT (conflict C4). -/
def State.pcUpdate (s : State) (op : Opcode) : State :=
  match op with
  | .ldi | .prn | .add | .mlt | .psh | .pop => s.setPc (s.pc + BitVec.ofNat 9 (opcodeLength op))
  | .cll | .ret | .hlt => s

/-! ### Fault entry

There is no return from a fault (60_exceptions.md rule R147): FAULTED is terminal, so no operation stands beside this one. -/

/-- `CODE(F)` (60_exceptions.md rule R140; decision D8). -/
def FaultCause.code : FaultCause → BitVec 2
  | .invalidOpcode _ => 1
  | .invalidAluOperation => 2
  | .outOfBounds _ _ => 3

/-- The `space` bit's value (10_state.md rule R27). -/
def Space.bit : Space → BitVec 1
  | .memory => 0
  | .register => 1

/-- `SPACE(F)`: 0 for every cause but OutOfBounds (10_state.md rule R27). -/
def FaultCause.spaceBit : FaultCause → BitVec 1
  | .outOfBounds sp _ => sp.bit
  | _ => 0

/-- The `info` a cause records (10_state.md rule R27, 60_exceptions.md rule R140). -/
def FaultCause.info : FaultCause → PcWord
  | .invalidOpcode b => b.setWidth 9
  | .invalidAluOperation => 0
  | .outOfBounds _ index => index

/-- `raise F(info)` (60_exceptions.md rule R144): the record is written with the current pc, the run state becomes
FAULTED, and nothing else changes. -/
def State.raise (s : State) (e : FaultCause) : State :=
  { s with
    run := .faulted
    fault := { valid := true, code := e.code, space := e.spaceBit, pc := s.pc, info := e.info } }

/-- How a step ends: with the new state, or by taking the fault that was raised in the state the step began in, which is
what makes every fault precise (40_engine.md rule R84, 60_exceptions.md rule R144). -/
def State.finish (s : State) : Except FaultCause State → Host.Outcome State Fault Refusal
  | .ok t => .next t
  | .error e => .next (s.raise e)

end Sys2Proof.Machine
end

