-- ==== Sys2Proof/Machine/Operands.lean ====
section
/-!
DEFINITION. The operand forms: a register index, checked before the execute phase (40_engine.md rule R84), and LDI's
immediate, a whole byte used unchanged (30_encoding.md rule R66), which needs no operation.
-/

namespace Sys2Proof.Machine

/-- `CheckReg(i)` (10_state.md rule R21): the register an operand byte names, or OutOfBounds(REGISTER, i). All 8 bits are
significant (decision D23). -/
def checkReg (i : Byte) : Except FaultCause Reg :=
  if h : i.toNat < 8 then .ok ⟨i.toNat, h⟩ else .error (.outOfBounds .register (i.setWidth 9))

/-- The operand check of an instruction with one register operand, then its execute phase and PC update (R84, R85). -/
def withReg (reg : Byte) (s : State) (k : Reg → State) : Host.Outcome State Fault Refusal :=
  match checkReg reg with
  | .error e => s.finish (.error e)
  | .ok r => s.finish (.ok (k r))

/-- The operand check of an instruction with two register operands, operand1 before operand2 (R84), then the rest of its
step, which may itself raise. -/
def withRegs (regA regB : Byte) (s : State) (k : Reg → Reg → Except FaultCause State) :
    Host.Outcome State Fault Refusal :=
  match checkReg regA with
  | .error e => s.finish (.error e)
  | .ok a =>
    match checkReg regB with
    | .error e => s.finish (.error e)
    | .ok b => s.finish (k a b)

end Sys2Proof.Machine
end

