-- ==== Sys2Proof/Machine/Alu.lean ====
section
/-!
DEFINITION. The ALU and its two instructions (42_alu.md).
-/

namespace Sys2Proof.Machine

/-- The ALU's operator tag. Decode drives only `add` and `mlt` (42_alu.md rule R110, decision D17); `other` stands for
every tag outside that domain, so that the ALU on its own can be given one (60_exceptions.md rule R142; log entry 6). -/
inductive AluTag where
  | add
  | mlt
  | other (tag : Nat)
  deriving DecidableEq, Repr

/-- `(a + b) mod 256` (R110, R113): the carry out of bit 7 is discarded and nothing records it. -/
def aluSum (a b : Byte) : Byte := BitVec.ofNat 8 (a.toNat + b.toNat)

/-- `(a * b) mod 256` (R110, R113): the low 8 bits of the 16-bit product. -/
def aluProduct (a b : Byte) : Byte := BitVec.ofNat 8 (a.toNat * b.toNat)

/-- `alu(op, regA, regB)` (R110): both registers are read before `x[regA]` is written; any other operator tag raises
InvalidALUOperation and writes no register. -/
def alu (tag : AluTag) (regA regB : Reg) (s : State) : Except FaultCause State :=
  match tag with
  | .add => .ok (s.setX regA (aluSum (s.x regA) (s.x regB)))
  | .mlt => .ok (s.setX regA (aluProduct (s.x regA) (s.x regB)))
  | .other _ => .error .invalidAluOperation

/-- The ALU followed by the PC update of the instruction that drove it (R110, R85). -/
def aluThenPc (tag : AluTag) (op : Opcode) (regA regB : Reg) (s : State) : Except FaultCause State :=
  match alu tag regA regB s with
  | .ok t => .ok (t.pcUpdate op)
  | .error e => .error e

/-- ADD (R111): `x[regA] <- (x[regA] + x[regB]) mod 256`. -/
def execAdd (regA regB : Byte) (s : State) : Host.Outcome State Fault Refusal :=
  withRegs regA regB s fun a b => aluThenPc .add .add a b s

/-- MLT (R112): `x[regA] <- (x[regA] * x[regB]) mod 256`. -/
def execMlt (regA regB : Byte) (s : State) : Host.Outcome State Fault Refusal :=
  withRegs regA regB s fun a b => aluThenPc .mlt .mlt a b s

end Sys2Proof.Machine
end

