-- ==== Sys2Proof/Machine/Stack.lean ====
section
/-!
DEFINITION. The stack protocol and the data-stack instructions (43_stack.md). Statements run in the order written, each
reading SP as the one before left it (00_scope.md rule R9, decision D9). No stack bounds are checked (R125).
-/

namespace Sys2Proof.Machine

/-- `SP <- (SP - 1) mod 256`: the first statement of push and of PSH (R120, R122). -/
def State.decSp (s : State) : State := s.setSp (s.sp - 1)

/-- `push(v)` (R120): SP goes down by 1 modulo 256, then `v` is written to the cell SP now addresses. -/
def State.push (s : State) (v : Byte) : State := s.decSp.memWrite s.decSp.sp v

/-- `popRead()` (R121): the byte at SP. -/
def State.popRead (s : State) : Byte := s.memRead s.sp

/-- `popClean()` (R121): 0 is written to the cell SP addresses now, then SP goes up by 1 modulo 256. -/
def State.popClean (s : State) : State :=
  let t := s.memWrite s.sp 0
  t.setSp (t.sp + 1)

/-- PSH (R122): the decrement, then `x[reg]`, read after it, is written to the cell at SP. -/
def execPsh (reg : Byte) (s : State) : Host.Outcome State Fault Refusal :=
  withReg reg s fun r => (s.decSp.memWrite s.decSp.sp (s.decSp.x r)).pcUpdate .psh

/-- POP (R123): the byte at SP goes to `x[reg]`, then popClean runs with SP as it stands then; for POP r7 that is the
popped value (conflict C11, decision D9). -/
def execPop (reg : Byte) (s : State) : Host.Outcome State Fault Refusal :=
  withReg reg s fun r => (s.setX r s.popRead).popClean.pcUpdate .pop

end Sys2Proof.Machine
end

