-- ==== Sys2Proof/Machine/CallReturn.lean ====
section
/-!
DEFINITION. Call and return (44_call_return.md). Both set the pc themselves, so the PC update adds nothing (R85).
-/

namespace Sys2Proof.Machine

/-- CLL (R130): the address of the CLL opcode itself is pushed, then `pc <- x[reg]`, read after the push (conflict C8,
decision D9 for CLL r7). -/
def execCll (reg : Byte) (s : State) : Host.Outcome State Fault Refusal :=
  withReg reg s fun r =>
    let t := s.push (byteOfPc s.pc)
    (t.setPc (pcOfByte (t.x r))).pcUpdate .cll

/-- RET (R131): the popped byte goes to the pc, 2 is added in full, then popClean runs (conflicts C1, C9). -/
def execRet (s : State) : Host.Outcome State Fault Refusal :=
  let t := s.setPc (pcOfByte s.popRead)
  let u := t.setPc (t.pc + Config.retAdjust)
  s.finish (.ok (u.popClean.pcUpdate .ret))

end Sys2Proof.Machine
end

