-- ==== Sys2Proof/Machine/Engine.lean ====
section
/-!
DEFINITION. The engine's own instruction, HLT (40_engine.md).
-/

namespace Sys2Proof.Machine

/-- HLT (R86): `state <- HALTED`; the pc keeps the address of the HLT opcode. -/
def execHlt (s : State) : Host.Outcome State Fault Refusal :=
  s.finish (.ok ((s.setRun .halted).pcUpdate .hlt))

end Sys2Proof.Machine
end

