-- ==== Sys2Proof/Machine/LoadOutput.lean ====
section
/-!
DEFINITION. Load immediate and output (41_load_output.md).
-/

namespace Sys2Proof.Machine

/-- LDI (R100): `x[reg] <- imm`, the immediate unchanged. -/
def execLdi (reg imm : Byte) (s : State) : Host.Outcome State Fault Refusal :=
  withReg reg s fun r => (s.setX r imm).pcUpdate .ldi

/-- PRN (R101): `Emit(x[reg])`. -/
def execPrn (reg : Byte) (s : State) : Host.Outcome State Fault Refusal :=
  withReg reg s fun r => (s.emit (s.x r)).pcUpdate .prn

end Sys2Proof.Machine
end

