-- ==== Sys2Proof/Machine/Dispatch.lean ====
section
/-!
DEFINITION. The dispatch of 40_engine.md rule R83: each instruction selects exactly one execute rule. exec begins after
fetch and decode: it is the operand check, the execute phase and the PC update (R82, phases 3 to 5), and does not look at the run state (log
entry 8).
-/

namespace Sys2Proof.Machine

def exec (i : Instr) (s : State) : Host.Outcome State Fault Refusal :=
  match i with
  | .hlt => Sys2Proof.Machine.execHlt s
  | .ldi reg imm => Sys2Proof.Machine.execLdi reg imm s
  | .prn reg => Sys2Proof.Machine.execPrn reg s
  | .add regA regB => Sys2Proof.Machine.execAdd regA regB s
  | .mlt regA regB => Sys2Proof.Machine.execMlt regA regB s
  | .psh reg => Sys2Proof.Machine.execPsh reg s
  | .pop reg => Sys2Proof.Machine.execPop reg s
  | .cll reg => Sys2Proof.Machine.execCll reg s
  | .ret => Sys2Proof.Machine.execRet s

end Sys2Proof.Machine
end

