-- ==== Sys2Proof/Machine/Fetch.lean ====
section
/-!
DEFINITION. The fetch and decode phases of a step (40_engine.md rule R82), and the placing of bytes in memory where a step
fetches them.
-/

namespace Sys2Proof.Machine

/-- Fetch the `n` operand bytes at rising addresses from `addr` on, operand1 first, each with its bounds check (R82). -/
def State.fetchOperands (s : State) : (n addr : Nat) → Except FaultCause (List Byte)
  | 0, _ => .ok []
  | n + 1, addr =>
    match s.memReadAt addr with
    | .error e => .error e
    | .ok b =>
      match s.fetchOperands n (addr + 1) with
      | .error e => .error e
      | .ok bs => .ok (b :: bs)

/-- Phases 1 and 2 of `Step()` (R82): the opcode fetch, decode, then only the operand bytes the opcode needs (decision
D12). The order of the checks is the first four lines of 60_exceptions.md rule R145. The last arm is never reached: exactly `nops op`
operand bytes were fetched. -/
def State.fetch (s : State) : Except FaultCause Instr :=
  match s.memReadAt s.pc.toNat with
  | .error e => .error e
  | .ok b =>
    match opcodeOf b with
    | none => .error (.invalidOpcode b)
    | some op =>
      match s.fetchOperands (nops op) (s.pc.toNat + 1) with
      | .error e => .error e
      | .ok bs =>
        match withOperands op bs with
        | some i => .ok i
        | none => .error (.invalidOpcode b)

/-- Bytes stored at rising addresses; a byte past address 255 has no cell and is dropped. -/
def State.placeBytes (s : State) : Nat → List Byte → State
  | _, [] => s
  | addr, b :: bs =>
    match s.memWriteAt addr b with
    | .ok t => t.placeBytes (addr + 1) bs
    | .error _ => s

/-- START's effect (60_exceptions.md rule R152): the hold ends and `state <- RUNNING`. -/
def State.release (s : State) : State := { s with run := .running, held := false }

end Sys2Proof.Machine
end

