-- ==== Sys2Proof/Machine/Flags.lean ====
section
/-!
DEFINITION. The core has no status flags: no instruction sets one and none reads one (10_state.md rule R26). "The only
flag-like state is the run state", and this file gives its readings.
-/

namespace Sys2Proof.Machine

/-- The source's "halted flag" (10_state.md rule R25): `state = HALTED`. -/
def State.haltedFlag (s : State) : Bool := s.run == .halted

/-- Whether a step is enabled: only while `state = RUNNING` (40_engine.md rule R80), and not before START
(60_exceptions.md rule R152). -/
def State.enabled (s : State) : Bool := s.run == .running && !s.held

/-- Whether the run has ended, normally or not (40_engine.md rule R88). -/
def State.ended (s : State) : Bool := s.run == .halted || s.run == .faulted

end Sys2Proof.Machine
end

