-- ==== Sys2Proof/Machine/Step.lean ====
section
/-!
DEFINITION. One step of the core (40_engine.md rules R80 to R85, R87).
-/

namespace Sys2Proof.Machine

/-- `Step()` (R82). It is enabled only while RUNNING (R80) and after START (60_exceptions.md rule R152); where it is not,
the state stays frozen (R87; log entry 2). A fault of the fetch or decode phase is taken in the state the step began in. -/
def step (s : State) : Host.Outcome State Fault Refusal :=
  if s.enabled then
    match s.fetch with
    | .error e => s.finish (.error e)
    | .ok i => exec i s
  else .next s

/-- The state with the instruction of low bits `w` stored at the pc, the bits above `nbits` zero, and the core released as
START releases it, so that the next step fetches and runs that instruction (log entry 4). -/
def State.withFetchWord (s : State) (nbits w : Nat) : State :=
  (s.placeBytes s.pc.toNat (tableBytes nbits w)).release

end Sys2Proof.Machine
end

