-- ==== Sys2Proof/Machine/Asm.lean ====
section
/-!
DEFINITION. The assembly syntax of 30_encoding.md rule R68, one instruction a line; an assembler emits the opcode byte and
then the operand bytes in the order written. Points the rule leaves open are in log entry 7.
-/

namespace Sys2Proof.Machine

/-- A text without the spaces at its two ends. -/
def asmTrim (cs : List Char) : List Char :=
  ((cs.dropWhile (· == ' ')).reverse.dropWhile (· == ' ')).reverse

/-- The parts of a text between its commas. -/
def asmParts : List Char → List (List Char)
  | [] => [[]]
  | c :: cs =>
    if c = ',' then [] :: asmParts cs
    else
      match asmParts cs with
      | [] => [[c]]
      | p :: ps => (c :: p) :: ps

/-- The value of a digit in a base of 10 or 16. -/
def asmDigit (base : Nat) (c : Char) : Option Nat :=
  let n := c.toNat
  let v := if '0'.toNat ≤ n ∧ n ≤ '9'.toNat then some (n - '0'.toNat)
    else if 'A'.toNat ≤ n ∧ n ≤ 'F'.toNat then some (n - 'A'.toNat + 10)
    else if 'a'.toNat ≤ n ∧ n ≤ 'f'.toNat then some (n - 'a'.toNat + 10)
    else none
  v.filter (· < base)

/-- The value of a sequence of digits that follow a value already read. -/
def asmDigits (base : Nat) : Nat → List Char → Option Nat
  | acc, [] => some acc
  | acc, c :: cs =>
    match asmDigit base c with
    | some d => asmDigits base (acc * base + d) cs
    | none => none

/-- A number in decimal, or in hex after `0x` (R68). -/
def asmNumber : List Char → Option Nat
  | [] => none
  | ['0', 'x'] => none
  | '0' :: 'x' :: cs => asmDigits 16 0 cs
  | cs => asmDigits 10 0 cs

/-- An immediate: a number in 0..255 (R68). -/
def asmImm (cs : List Char) : Option Byte :=
  match asmNumber cs with
  | some n => if n < 256 then some (BitVec.ofNat 8 n) else none
  | none => none

/-- A register: `r0` to `r7`, or `SP` for `r7` (R68). -/
def asmReg : List Char → Option Byte
  | ['S', 'P'] => some 7
  | ['r', c] =>
    match asmDigit 10 c with
    | some d => if d < 8 then some (BitVec.ofNat 8 d) else none
    | none => none
  | _ => none

/-- An instruction with one register operand. -/
def asmOneReg (mk : Byte → Instr) : List (List Char) → Option Instr
  | [r] => (asmReg r).map mk
  | _ => none

/-- An instruction with two register operands. -/
def asmTwoRegs (mk : Byte → Byte → Instr) : List (List Char) → Option Instr
  | [a, b] =>
    match asmReg a, asmReg b with
    | some x, some y => some (mk x y)
    | _, _ => none
  | _ => none

/-- The operands of LDI: a register and an immediate. -/
def asmRegImm (mk : Byte → Byte → Instr) : List (List Char) → Option Instr
  | [a, b] =>
    match asmReg a, asmImm b with
    | some x, some y => some (mk x y)
    | _, _ => none
  | _ => none

/-- An instruction without operands. -/
def asmNoOperand (i : Instr) : List (List Char) → Option Instr
  | [[]] => some i
  | _ => none

/-- The instruction a line of assembly text stands for: a mnemonic in upper case, then its operands (R68). -/
def asmInstr (line : List Char) : Option Instr :=
  let text := asmTrim line
  let ops := (asmParts (text.dropWhile (· != ' '))).map asmTrim
  match text.takeWhile (· != ' ') with
  | ['H', 'L', 'T'] => asmNoOperand .hlt ops
  | ['R', 'E', 'T'] => asmNoOperand .ret ops
  | ['P', 'R', 'N'] => asmOneReg .prn ops
  | ['P', 'S', 'H'] => asmOneReg .psh ops
  | ['P', 'O', 'P'] => asmOneReg .pop ops
  | ['C', 'L', 'L'] => asmOneReg .cll ops
  | ['L', 'D', 'I'] => asmRegImm .ldi ops
  | ['A', 'D', 'D'] => asmTwoRegs .add ops
  | ['M', 'L', 'T'] => asmTwoRegs .mlt ops
  | _ => none

/-- The bytes an assembler emits for a sequence of lines (R68), or none where a line is no instruction. -/
def assemble : List (List Char) → Option (List Byte)
  | [] => some []
  | line :: lines =>
    match asmInstr line, assemble lines with
    | some i, some bs => some (encode i ++ bs)
    | _, _ => none

end Sys2Proof.Machine
end

