-- ==== Sys2Proof/Machine/HostPort.lean ====
section
/-!
DEFINITION. The host's control and status interface (60_exceptions.md rule R152), the program image load and the launch
state (70_reset_and_hazards.md rules R163, R165). These are the host's actions between steps, never part of a step.
-/

namespace Sys2Proof.Machine

/-- "The only actions the host may take" (R152). -/
inductive HostAction where
  | reset
  | load (addr byte : Byte)
  | start
  | readOut
  | readState
  deriving DecidableEq, Repr

/-- What READ-STATE reads (R152): `x[0..7]`, `pc`, `M`, `state` and the fault record. -/
structure StateView where
  regs : Vector Byte 8
  pc : PcWord
  mem : Memory
  run : RunState
  fault : FaultRecord
  deriving DecidableEq, Repr

/-- RESET (R152, R160): at any time, every piece of state takes its reset value, and the core is held. -/
def hostReset (_ : State) : Host.Outcome State Fault Refusal := .next State.reset

/-- LOAD(addr, byte) (R152): only while held after RESET. -/
def hostLoad (addr byte : Byte) (s : State) : Host.Outcome State Fault Refusal :=
  if s.held then .next (s.memWrite addr byte) else .refused .hostActionNotAllowed

/-- START (R152): once, after RESET. -/
def hostStart (s : State) : Host.Outcome State Fault Refusal :=
  if s.held then .next s.release else .refused .hostActionNotAllowed

/-- READ-OUT (R152): the values PRN has emitted, in order; reading does not consume them (log entry 10). -/
def readOut (s : State) : List Byte := s.out

/-- READ-STATE (R152): only when `state` is HALTED or FAULTED. -/
def readState (s : State) : Except Refusal StateView :=
  if s.ended then .ok { regs := s.regs, pc := s.pc, mem := s.mem, run := s.run, fault := s.fault }
  else .error .hostActionNotAllowed

/-- The effect of a host action on the core's state; an action outside its "when allowed" column is refused (log entry 5).
Reading changes nothing. -/
def hostAct (a : HostAction) (s : State) : Host.Outcome State Fault Refusal :=
  match a with
  | .reset => hostReset s
  | .load addr byte => hostLoad addr byte s
  | .start => hostStart s
  | .readOut => .next s
  | .readState =>
    match readState s with
    | .ok _ => .next s
    | .error r => .refused r

/-- LOAD each byte of an image at rising addresses from `addr` on (R163). -/
def loadFrom : Nat → List Byte → State → Host.Outcome State Fault Refusal
  | _, [], s => .next s
  | addr, b :: bs, s =>
    match hostLoad (BitVec.ofNat 8 addr) b s with
    | .next t => loadFrom (addr + 1) bs t
    | .fault f => .fault f
    | .refused r => .refused r

/-- The program image load between RESET and START (R163): from address 0; an image of more than 256 bytes does not fit
and is refused (decision D15). An empty image is accepted (log entry 11). -/
def loadImage (image : List Byte) (s : State) : Host.Outcome State Fault Refusal :=
  if image.length ≤ Config.memSize then loadFrom Config.loadBase image s else .refused .imageTooLong

/-- The launch state of R165: RESET, the image load, START. -/
def launch (image : List Byte) : Host.Outcome State Fault Refusal :=
  match loadImage image State.reset with
  | .next t => hostStart t
  | .fault f => .fault f
  | .refused r => .refused r

end Sys2Proof.Machine
end

