-- ==== Sys2Proof/Safety.lean ====
section
/-!
DEFINITION. What every state of the core satisfies: the invariant statements are about, and the words statements use.
-/

namespace Sys2Proof.Machine

/-- The fault record describes a fault a program can cause (10_state.md rule R27, 60_exceptions.md rules R140 to R143), or
is clear. InvalidALUOperation, code 2, is not among them (R142). -/
def FaultRecord.Legal (r : FaultRecord) : Prop :=
  (r = FaultRecord.clear) ∨
  (r.valid = true ∧ r.code = 1 ∧ r.space = 0 ∧ r.pc.toNat ≤ 255 ∧ r.info.toNat ≤ 255 ∧
    opcodeOf (r.info.setWidth 8) = none) ∨
  (r.valid = true ∧ r.code = 3 ∧ r.space = 0 ∧
    ((255 < r.pc.toNat ∧ r.info = r.pc) ∨ (254 ≤ r.pc.toNat ∧ r.pc.toNat ≤ 255 ∧ r.info = 256))) ∨
  (r.valid = true ∧ r.code = 3 ∧ r.space = 1 ∧ r.pc.toNat ≤ 254 ∧ 8 ≤ r.info.toNat ∧ r.info.toNat ≤ 255)

/-- The invariant of the core's states. -/
structure Inv (s : State) : Prop where
  /-- The memory is in canonical form. -/
  mem_wf : s.mem.wf
  /-- The pc is one of the reachable values 0..258 (10_state.md rule R24). -/
  pc_reachable : s.pc.toNat ≤ 258
  /-- A fault is recorded exactly in FAULTED (10_state.md rules R25, R27). -/
  recorded_iff_faulted : s.fault.valid = true ↔ s.run = .faulted
  /-- The recorded pc is the pc the core stopped at (60_exceptions.md rule R144). -/
  recorded_pc : s.fault.valid = true → s.fault.pc = s.pc
  /-- The fault record is clear or describes a fault a program can cause. -/
  record_legal : s.fault.Legal
  /-- While the core is held, only the memory may differ from reset (60_exceptions.md rule R152). -/
  held_fresh : s.held = true → ∃ m, s = { State.reset with mem := m }

/-- Every register reads as before, but for those of which `p` holds. -/
def SameRegsExcept (p : Reg → Prop) (s t : State) : Prop := ∀ r, ¬ p r → t.x r = s.x r

/-- Every byte of memory reads as before outside one cell. -/
def SameMemExcept (a : Byte) (s t : State) : Prop := ∀ b, b ≠ a → t.memRead b = s.memRead b

/-- Every byte of memory reads as before. -/
def SameMem (s t : State) : Prop := ∀ b, t.memRead b = s.memRead b

/-- The run state, the fault record and the hold are as before. -/
def SameControl (s t : State) : Prop := t.run = s.run ∧ t.fault = s.fault ∧ t.held = s.held

/-- The bytes of memory from the pc up to address 255, at rising addresses; none where the pc is above 255 (R60, R82). -/
def State.bytesAtPc (s : State) : List Byte :=
  (List.range (Config.memSize - s.pc.toNat)).map fun k => s.memRead (BitVec.ofNat 8 (s.pc.toNat + k))

/-- The bytes at the pc decode to an instruction. -/
def State.DecodesTo (s : State) (i : Instr) : Prop := ∃ rest, decode s.bytesAtPc = .ok (i, rest)

/-- Push a sequence of bytes, the first one first (43_stack.md rule R124). -/
def pushAll (vs : List Byte) (s : State) : State := vs.foldl State.push s

/-- Pop `n` bytes with the cleanup of R121, and give them in the order popped. -/
def popMany : Nat → State → List Byte × State
  | 0, s => ([], s)
  | n + 1, s =>
    let r := popMany n s.popClean
    (s.popRead :: r.1, r.2)

/-- What a fault leaves unchanged: registers, pc, memory, output and the hold (60_exceptions.md rule R144). -/
def PreciseFault (s t : State) : Prop :=
  t.regs = s.regs ∧ t.pc = s.pc ∧ t.mem = s.mem ∧ t.out = s.out ∧ t.held = s.held ∧ t.run = .faulted

/-- A fault record with the given fields, recorded. -/
def recordOf (code : BitVec 2) (space : BitVec 1) (pc info : PcWord) : FaultRecord :=
  { valid := true, code := code, space := space, pc := pc, info := info }

/-- The state a fault of the given code, space and info leaves: FAULTED, with the record, and nothing else changed. -/
def State.faulted (s : State) (code : BitVec 2) (space : BitVec 1) (info : PcWord) : State :=
  { s with run := .faulted, fault := recordOf code space s.pc info }

/-- The 247 illegal opcode bytes, as 30_encoding.md rule R63 lists them. -/
def IllegalByte (b : Byte) : Prop :=
  b = 0x00 ∨ (0x02 ≤ b ∧ b ≤ 0x10) ∨ (0x12 ≤ b ∧ b ≤ 0x44) ∨ (0x48 ≤ b ∧ b ≤ 0x4F) ∨ (0x51 ≤ b ∧ b ≤ 0x81) ∨
  (0x83 ≤ b ∧ b ≤ 0x9F) ∨ b = 0xA1 ∨ 0xA3 ≤ b

/-- The byte `k` places after the pc, where there is such a cell. -/
def State.byteAfterPc (s : State) (k : Nat) : Byte := s.memRead (BitVec.ofNat 8 (s.pc.toNat + k))

end Sys2Proof.Machine
end

