-- ==== Sys2Proof/Certificates/Slice0/Obligations.lean ====
section
/-!
DEFINITION. The statements for the provers. Each docstring names the rule of spec/ it formalises. `SameMem`, `SameControl`,
`SameRegsExcept` and `SameMemExcept` (Safety.lean) are the frames; `State.faulted` is what a fault leaves.
-/

open Sys2Proof Sys2Proof.Machine

/-! ### Reset and the host -/

/-- R33: the reset values of the whole state; the run state is RUNNING once the host starts the core. -/
def Obligations.ResetState : Prop :=
  (∀ r : Reg, r ≠ 7 → State.reset.x r = 0) ∧ State.reset.x 7 = 0xF4 ∧ State.reset.pc = 0 ∧
  (∀ a, State.reset.memRead a = 0) ∧
  (∃ t, hostAct .start State.reset = .next t ∧ t.run = .running) ∧
  (State.reset.fault.valid = false ∧ State.reset.fault.code = 0 ∧ State.reset.fault.space = 0 ∧
    State.reset.fault.pc = 0 ∧ State.reset.fault.info = 0) ∧
  State.reset.out = []

/-- R152, R160: RESET holds the core, so no step is taken until START; START then enables the step and changes nothing
else. The hold bit at reset is the model's reading (log entry 1), and an idle step that answers the same state is the
model's choice (log entry 2), as is the refusal of what the host may not do (log entry 5). -/
def Obligations.ResetHoldsUntilStart : Prop :=
  step State.reset = .next State.reset ∧
  ∃ t, hostAct .start State.reset = .next t ∧ t.enabled = true ∧ t.regs = State.reset.regs ∧ t.pc = State.reset.pc ∧
    t.mem = State.reset.mem ∧ t.fault = State.reset.fault ∧ t.out = State.reset.out ∧
    ∀ a v, hostAct .start t = .refused .hostActionNotAllowed ∧ hostAct (.load a v) t = .refused .hostActionNotAllowed

/-- R152: RESET at any time; LOAD and START only while held; READ-OUT at any time; READ-STATE only when HALTED or FAULTED.
Two points are the model's choice, not the rule's: that an action outside these is refused (log entry 5), and that READ-OUT
gives the whole of `out` and consumes nothing, so leaves the state as it is (log entry 10). -/
def Obligations.HostActionsAllowed : Prop :=
  ∀ s : State,
    hostAct .reset s = .next State.reset ∧
    (s.held = true → ∀ a v, ∃ t, hostAct (.load a v) s = .next t ∧ (s.mem.wf → t.memRead a = v) ∧ SameMemExcept a s t ∧
      t.regs = s.regs ∧ t.pc = s.pc ∧ t.out = s.out ∧ SameControl s t) ∧
    (s.held = true → hostAct .start s = .next { s with run := .running, held := false }) ∧
    (s.held = false → hostAct .start s = .refused .hostActionNotAllowed ∧
      ∀ a v, hostAct (.load a v) s = .refused .hostActionNotAllowed) ∧
    (hostAct .readOut s = .next s ∧ readOut s = s.out) ∧
    (s.run = .halted ∨ s.run = .faulted → hostAct .readState s = .next s ∧ readState s = .ok
      { regs := s.regs, pc := s.pc, mem := s.mem, run := s.run, fault := s.fault }) ∧
    (s.run = .running → hostAct .readState s = .refused .hostActionNotAllowed)

/-- R25, R87, R158, R160: from HALTED or FAULTED no step and no host action but RESET changes anything. The step's
answer of the same state is the model's choice (log entry 2), and so are the refusal of LOAD and START there (log entry 5) and
that READ-OUT consumes nothing (log entry 10). -/
def Obligations.OnlyResetLeavesTerminal : Prop :=
  ∀ s : State, Inv s → s.ended = true →
    step s = .next s ∧ ∀ a t, hostAct a s = .next t → t = s ∨ (a = .reset ∧ t = State.reset)

/-- R163, R165: the launch state of an image of at most 256 bytes is the reset state with the image from address 0 on and
the core running; a longer image is refused (decision D15). That an image of no
bytes is accepted is read from R163 (log entry 11). -/
def Obligations.LaunchStateHoldsImage : Prop :=
  ∀ image : List Byte,
    (image.length ≤ 256 → ∃ t, launch image = .next t ∧ t.enabled = true ∧ t.regs = State.reset.regs ∧ t.pc = 0 ∧
      t.fault = FaultRecord.clear ∧ t.out = [] ∧
      ∀ a : Byte, t.memRead a = if h : a.toNat < image.length then image[a.toNat] else 0) ∧
    (256 < image.length → launch image = .refused .imageTooLong)

/-! ### The invariant -/

/-- The invariant holds after RESET. -/
def Obligations.InvAtReset : Prop := Inv State.reset

/-- Every step keeps the invariant: the memory canonical, the pc in 0..258 (R24), a fault recorded exactly in FAULTED, with
the pc the core stopped at, and only a fault a program can cause, so never InvalidALUOperation (R142). -/
def Obligations.InvKeptByStep : Prop := ∀ s t : State, Inv s → step s = .next t → Inv t

/-- Every host action of R152 keeps the invariant. That a disallowed action is refused (log entry 5) and that READ-OUT consumes
nothing (log entry 10) are the model's choices. -/
def Obligations.InvKeptByHost : Prop := ∀ (a : HostAction) (s t : State), Inv s → hostAct a s = .next t → Inv t

/-! ### Encoding -/

/-- R60, R61: the decoder answers an instruction and the rest exactly where the bytes begin with that instruction's
encoding. Every operand byte is kept (R64 to R66). -/
def Obligations.DecodeEncodeAgree : Prop :=
  ∀ (bs rest : List Byte) (i : Instr), decode bs = .ok (i, rest) ↔ bs = encode i ++ rest

/-- R61: words written out from the opcode map and the source's scenario bytes. -/
def Obligations.DecodeScenarioWords : Prop :=
  decode [0b10000010, 0b00000000, 0b00001000] = .ok (.ldi 0 8, []) ∧
  decode [0b10100000, 0b00000000, 0b00000001] = .ok (.add 0 1, []) ∧
  decode [0b01000111, 0b00000000, 0b00000001] = .ok (.prn 0, [1]) ∧
  decode [0b00000001] = .ok (.hlt, []) ∧
  decode [0b10100010, 3, 5] = .ok (.mlt 3 5, []) ∧
  decode [0b01000101, 7] = .ok (.psh 7, []) ∧
  decode [0b01000110, 6] = .ok (.pop 6, []) ∧
  decode [0b01010000, 1] = .ok (.cll 1, []) ∧
  decode [0b00010001, 0b00010001] = .ok (.ret, [0b00010001])

/-- R63: the illegal opcode bytes are exactly the 247 values the rule lists, and the decoder rejects each by name. -/
def Obligations.IllegalBytesRejected : Prop :=
  (∀ (b : Byte) (bs : List Byte), decode (b :: bs) = .error (.invalidOpcode b) ↔ IllegalByte b) ∧
  ((List.range 256).filter fun n => opcodeOf (BitVec.ofNat 8 n) == none).length = 247

/-- R68: the text of the source's first scenario assembles to its bytes (95_test_vectors.md P1). -/
def Obligations.AssembledScenario : Prop :=
  assemble [['L', 'D', 'I', ' ', 'r', '0', ',', '8'], ['L', 'D', 'I', ' ', 'r', '1', ',', ' ', '3'],
    ['A', 'D', 'D', ' ', 'r', '0', ',', 'r', '1'], ['P', 'R', 'N', ' ', 'r', '0'], ['H', 'L', 'T']] =
  some [0x82, 0x00, 0x08, 0x82, 0x01, 0x03, 0xA0, 0x00, 0x01, 0x47, 0x00, 0x01]

/-! ### The engine -/

/-- R82, R83: where a step is enabled and the bytes at the pc decode to an instruction, the step is exec of it, at the same
state. The step adds nothing around exec: the PC update is inside it (R85). -/
def Obligations.StepRunsDecodedInstruction : Prop :=
  ∀ (s : State) (i : Instr), s.enabled = true → s.DecodesTo i → step s = exec i s

/-- R80, R87: a step that is not enabled leaves the state frozen. That it answers the same state is the model's choice
(log entry 2). -/
def Obligations.NotEnabledFrozen : Prop :=
  ∀ s : State, s.run = .halted ∨ s.run = .faulted ∨ s.held = true → step s = .next s

/-- R169: a step always ends in a next state, which is RUNNING, HALTED or FAULTED; while it is RUNNING it stays enabled. -/
def Obligations.StepAlwaysAnswers : Prop :=
  ∀ s : State, s.enabled = true → ∃ t, step s = .next t ∧ t.held = false ∧
    (t.enabled = true ∨ t.run = .halted ∨ t.run = .faulted)

/-- R86: HLT halts in place and changes nothing else; every fetched HLT does so, at address 255 too; with the pc above 255
none is executed; and only HLT enters HALTED. -/
def Obligations.HltAloneHaltsInPlace : Prop :=
  encode .hlt = [0x01] ∧
  (∀ s : State, ∃ t, exec .hlt s = .next t ∧ t.run = .halted ∧ t.pc = s.pc ∧ t.regs = s.regs ∧ SameMem s t ∧
    t.out = s.out ∧ t.fault = s.fault ∧ t.held = s.held) ∧
  (∀ s : State, s.enabled = true → s.pc.toNat ≤ 255 → s.byteAfterPc 0 = 0x01 → step s = .next { s with run := .halted }) ∧
  (∀ s : State, s.enabled = true → 255 < s.pc.toNat → step s = .next (s.faulted 3 0 s.pc)) ∧
  (∀ s t : State, s.enabled = true → step s = .next t → t.run = .halted → s.pc.toNat ≤ 255 ∧ s.byteAfterPc 0 = 0x01)

/-- R85: the PC update. LDI, ADD and MLT add 3, PRN, PSH and POP add 2, in full; CLL, RET and HLT get none; a pc above 255
faults at the next fetch. -/
def Obligations.PcUpdateInFull : Prop :=
  ∀ (op : Opcode) (s : State), s.pc.toNat ≤ 255 →
    ((s.pcUpdate op).pc.toNat =
      if op ∈ ([.ldi, .prn, .add, .mlt, .psh, .pop] : List Opcode) then s.pc.toNat + (1 + nops op) else s.pc.toNat) ∧
    (nops .ldi = 2 ∧ nops .prn = 1 ∧ nops .add = 2 ∧ nops .mlt = 2 ∧ nops .psh = 1 ∧ nops .pop = 1) ∧
    (s.enabled = true → 255 < (s.pcUpdate op).pc.toNat →
      step (s.pcUpdate op) = .next ((s.pcUpdate op).faulted 3 0 (s.pcUpdate op).pc))

/-- R34: which instructions write each piece of state. -/
def Obligations.WritersOfState : Prop :=
  ∀ (i : Instr) (s t : State), exec i s = .next t →
    (∀ r : Reg, t.x r ≠ s.x r →
      (∃ b, b.toNat = r.val ∧ ((∃ v, i = .ldi b v) ∨ (∃ c, i = .add b c) ∨ (∃ c, i = .mlt b c) ∨ i = .pop b)) ∨
      (r = 7 ∧ ((∃ b, i = .psh b) ∨ (∃ b, i = .pop b) ∨ (∃ b, i = .cll b) ∨ i = .ret))) ∧
    (∀ a, t.memRead a ≠ s.memRead a → (∃ b, i = .psh b) ∨ (∃ b, i = .pop b) ∨ (∃ b, i = .cll b) ∨ i = .ret) ∧
    (t.out ≠ s.out → ∃ b, i = .prn b) ∧
    (t.pc ≠ s.pc → i ≠ .hlt) ∧
    (t.run ≠ s.run → i = .hlt ∨ t.run = .faulted) ∧
    (t.fault ≠ s.fault → t.run = .faulted) ∧
    t.held = s.held

/-! ### Load and output -/

/-- R100: LDI. -/
def Obligations.LdiLoadsImmediate : Prop :=
  ∀ reg imm : Byte,
    encode (.ldi reg imm) = [0x82, reg, imm] ∧
    (∀ (h : reg.toNat < 8) (s : State), s.pc.toNat ≤ 255 → ∃ t, exec (.ldi reg imm) s = .next t ∧
      t.x ⟨reg.toNat, h⟩ = imm ∧ SameRegsExcept (· = ⟨reg.toNat, h⟩) s t ∧ t.pc.toNat = s.pc.toNat + 3 ∧
      SameMem s t ∧ t.out = s.out ∧ SameControl s t) ∧
    (8 ≤ reg.toNat → ∀ s : State, exec (.ldi reg imm) s = .next (s.faulted 3 1 (reg.setWidth 9))) ∧
    (∀ s : State, s.enabled = true → s.byteAfterPc 0 = 0x82 → s.pc.toNat = 254 ∨ s.pc.toNat = 255 →
      step s = .next (s.faulted 3 0 256))

/-- R101: PRN. -/
def Obligations.PrnEmitsRegister : Prop :=
  ∀ reg : Byte,
    encode (.prn reg) = [0x47, reg] ∧
    (∀ (h : reg.toNat < 8) (s : State), s.pc.toNat ≤ 255 → ∃ t, exec (.prn reg) s = .next t ∧
      t.out = s.out ++ [s.x ⟨reg.toNat, h⟩] ∧ t.regs = s.regs ∧ t.pc.toNat = s.pc.toNat + 2 ∧ SameMem s t ∧
      SameControl s t) ∧
    (8 ≤ reg.toNat → ∀ s : State, exec (.prn reg) s = .next (s.faulted 3 1 (reg.setWidth 9))) ∧
    (∀ s : State, s.enabled = true → s.byteAfterPc 0 = 0x47 → s.pc.toNat = 255 → step s = .next (s.faulted 3 0 256))

/-- R30, R101: a step leaves the output as it is or appends one value, that of the register a PRN at the pc names. -/
def Obligations.OutputGrowsByPrnAlone : Prop :=
  ∀ s t : State, step s = .next t →
    t.out = s.out ∨ ∃ (reg : Byte) (h : reg.toNat < 8), s.enabled = true ∧ s.DecodesTo (.prn reg) ∧
      t.out = s.out ++ [s.x ⟨reg.toNat, h⟩]

/-- R30: nothing in the core reads the output back: with other earlier output, a step does the same and appends the same. -/
def Obligations.OutputNeverReadBack : Prop :=
  ∀ (s t : State) (earlier : List Byte), step s = .next t →
    step { s with out := earlier ++ s.out } = .next { t with out := earlier ++ t.out }

/-! ### The ALU -/

/-- R110, R142: the ALU on its own. Both registers are read before the write; every other operator tag (log
entry 6) is InvalidALUOperation, code 2 with info 0, and no register is written. -/
def Obligations.AluComputesOrFaults : Prop :=
  ∀ (a b : Reg) (s : State),
    (∃ t, alu .add a b s = .ok t ∧ (t.x a).toNat = ((s.x a).toNat + (s.x b).toNat) % 256 ∧ SameRegsExcept (· = a) s t ∧
      t.pc = s.pc ∧ SameMem s t ∧ t.out = s.out ∧ SameControl s t) ∧
    (∃ t, alu .mlt a b s = .ok t ∧ (t.x a).toNat = (s.x a).toNat * (s.x b).toNat % 256 ∧ SameRegsExcept (· = a) s t ∧
      t.pc = s.pc ∧ SameMem s t ∧ t.out = s.out ∧ SameControl s t) ∧
    ∀ n, alu (.other n) a b s = .error .invalidAluOperation ∧
      s.finish (alu (.other n) a b s) = .next (s.faulted 2 0 0)

/-- R111: ADD. -/
def Obligations.AddWrapsModulo256 : Prop :=
  ∀ regA regB : Byte,
    encode (.add regA regB) = [0xA0, regA, regB] ∧
    (∀ (hA : regA.toNat < 8) (hB : regB.toNat < 8) (s : State), s.pc.toNat ≤ 255 → ∃ t, exec (.add regA regB) s = .next t ∧
      (t.x ⟨regA.toNat, hA⟩).toNat = ((s.x ⟨regA.toNat, hA⟩).toNat + (s.x ⟨regB.toNat, hB⟩).toNat) % 256 ∧
      SameRegsExcept (· = ⟨regA.toNat, hA⟩) s t ∧ t.pc.toNat = s.pc.toNat + 3 ∧ SameMem s t ∧ t.out = s.out ∧
      SameControl s t) ∧
    (8 ≤ regA.toNat → ∀ s : State, exec (.add regA regB) s = .next (s.faulted 3 1 (regA.setWidth 9))) ∧
    (regA.toNat < 8 → 8 ≤ regB.toNat → ∀ s : State, exec (.add regA regB) s = .next (s.faulted 3 1 (regB.setWidth 9))) ∧
    (∀ s : State, s.enabled = true → s.byteAfterPc 0 = 0xA0 → s.pc.toNat = 254 ∨ s.pc.toNat = 255 →
      step s = .next (s.faulted 3 0 256))

/-- R112: MLT. -/
def Obligations.MltKeepsLowByte : Prop :=
  ∀ regA regB : Byte,
    encode (.mlt regA regB) = [0xA2, regA, regB] ∧
    (∀ (hA : regA.toNat < 8) (hB : regB.toNat < 8) (s : State), s.pc.toNat ≤ 255 → ∃ t, exec (.mlt regA regB) s = .next t ∧
      (t.x ⟨regA.toNat, hA⟩).toNat = (s.x ⟨regA.toNat, hA⟩).toNat * (s.x ⟨regB.toNat, hB⟩).toNat % 256 ∧
      SameRegsExcept (· = ⟨regA.toNat, hA⟩) s t ∧ t.pc.toNat = s.pc.toNat + 3 ∧ SameMem s t ∧ t.out = s.out ∧
      SameControl s t) ∧
    (8 ≤ regA.toNat → ∀ s : State, exec (.mlt regA regB) s = .next (s.faulted 3 1 (regA.setWidth 9))) ∧
    (regA.toNat < 8 → 8 ≤ regB.toNat → ∀ s : State, exec (.mlt regA regB) s = .next (s.faulted 3 1 (regB.setWidth 9))) ∧
    (∀ s : State, s.enabled = true → s.byteAfterPc 0 = 0xA2 → s.pc.toNat = 254 ∨ s.pc.toNat = 255 →
      step s = .next (s.faulted 3 0 256))

/-- R113: the arithmetic laws, on the operations the ALU uses. -/
def Obligations.ArithmeticLaws : Prop :=
  (∀ a b : Byte, aluSum a b = aluSum b a ∧ aluProduct a b = aluProduct b a ∧ aluSum a 0 = a ∧ aluProduct a 0 = 0 ∧
    aluProduct a 1 = a) ∧
  aluSum 255 1 = 0 ∧ aluSum 255 255 = 254 ∧ aluProduct 16 16 = 0 ∧ aluProduct 255 255 = 1 ∧ aluProduct 128 2 = 0

/-! ### The stack -/

/-- R120: push. SP goes down by 1 modulo 256, the byte is written to the cell at the new SP, and nothing else changes;
from the reset SP the first push writes cell 0xF3. -/
def Obligations.PushWritesBelowSp : Prop :=
  (∀ (s : State) (v : Byte), s.mem.wf →
    (s.push v).sp.toNat = (s.sp.toNat + 255) % 256 ∧ (s.push v).memRead s.decSp.sp = v ∧ s.decSp.sp = (s.push v).sp ∧
    SameMemExcept s.decSp.sp s (s.push v) ∧ SameRegsExcept (· = 7) s (s.push v) ∧ (s.push v).pc = s.pc ∧
    (s.push v).out = s.out ∧ SameControl s (s.push v)) ∧
  ∀ v : Byte, (State.reset.push v).memRead 0xF3 = v

/-- R121: pop and its cleanup. popRead is the byte at SP; popClean zeroes the cell at SP and raises SP by 1 modulo 256. -/
def Obligations.PopReadsZeroesRaises : Prop :=
  ∀ s : State, s.mem.wf →
    s.popRead = s.memRead s.sp ∧ s.popClean.memRead s.sp = 0 ∧ s.popClean.sp.toNat = (s.sp.toNat + 1) % 256 ∧
    SameMemExcept s.sp s s.popClean ∧ SameRegsExcept (· = 7) s s.popClean ∧ s.popClean.pc = s.pc ∧
    s.popClean.out = s.out ∧ SameControl s s.popClean

/-- R122: PSH. The cell is the one at the decremented SP; `PSH r7` stores the decremented SP (decision D9). -/
def Obligations.PshStoresBelowSp : Prop :=
  ∀ reg : Byte,
    encode (.psh reg) = [0x45, reg] ∧
    (∀ (h : reg.toNat < 8) (s : State), s.mem.wf → s.pc.toNat ≤ 255 → ∃ t, exec (.psh reg) s = .next t ∧
      t.sp.toNat = (s.sp.toNat + 255) % 256 ∧ t.sp = s.decSp.sp ∧
      t.memRead s.decSp.sp = (if reg.toNat = 7 then t.sp else s.x ⟨reg.toNat, h⟩) ∧
      SameMemExcept s.decSp.sp s t ∧ SameRegsExcept (· = 7) s t ∧ t.pc.toNat = s.pc.toNat + 2 ∧ t.out = s.out ∧
      SameControl s t) ∧
    (8 ≤ reg.toNat → ∀ s : State, exec (.psh reg) s = .next (s.faulted 3 1 (reg.setWidth 9))) ∧
    (∀ s : State, s.enabled = true → s.byteAfterPc 0 = 0x45 → s.pc.toNat = 255 → step s = .next (s.faulted 3 0 256))

/-- R123: POP, for every register but r7 and for r7. For `POP r7` the popped value is the cell that is zeroed, and SP is
that value plus 1 (decision D9, conflict C11). -/
def Obligations.PopLoadsAndZeroes : Prop :=
  ∀ reg : Byte,
    encode (.pop reg) = [0x46, reg] ∧
    (∀ (h : reg.toNat < 7) (s : State), s.mem.wf → s.pc.toNat ≤ 255 → ∃ t, exec (.pop reg) s = .next t ∧
      t.x ⟨reg.toNat, by omega⟩ = s.memRead s.sp ∧ t.memRead s.sp = 0 ∧ t.sp.toNat = (s.sp.toNat + 1) % 256 ∧
      SameMemExcept s.sp s t ∧ SameRegsExcept (fun r => r = ⟨reg.toNat, by omega⟩ ∨ r = 7) s t ∧
      t.pc.toNat = s.pc.toNat + 2 ∧ t.out = s.out ∧ SameControl s t) ∧
    (reg.toNat = 7 → ∀ s : State, s.mem.wf → s.pc.toNat ≤ 255 → ∃ t, exec (.pop reg) s = .next t ∧
      t.sp.toNat = ((s.memRead s.sp).toNat + 1) % 256 ∧ t.memRead (s.memRead s.sp) = 0 ∧
      SameMemExcept (s.memRead s.sp) s t ∧ SameRegsExcept (· = 7) s t ∧ t.pc.toNat = s.pc.toNat + 2 ∧ t.out = s.out ∧
      SameControl s t) ∧
    (8 ≤ reg.toNat → ∀ s : State, exec (.pop reg) s = .next (s.faulted 3 1 (reg.setWidth 9))) ∧
    (∀ s : State, s.enabled = true → s.byteAfterPc 0 = 0x46 → s.pc.toNat = 255 → step s = .next (s.faulted 3 0 256))

/-- R124: PSH then POP moves the value, restores SP and leaves 0 in the popped cell. -/
def Obligations.PshThenPopMovesValue : Prop :=
  ∀ (a b : Byte) (ha : a.toNat < 7) (hb : b.toNat < 7) (s t u : State), s.mem.wf →
    exec (.psh a) s = .next t → exec (.pop b) t = .next u →
    u.x ⟨b.toNat, by omega⟩ = s.x ⟨a.toNat, by omega⟩ ∧ u.sp = s.sp ∧ u.memRead t.sp = 0 ∧ SameMemExcept t.sp s u

/-- R124: N pushes then N pops give the values back in reverse order, with SP restored and every cell used holding 0, for
every N up to 256. -/
def Obligations.StackIsLifo : Prop :=
  ∀ (vs : List Byte) (s : State), s.mem.wf → vs.length ≤ 256 →
    (popMany vs.length (pushAll vs s)).1 = vs.reverse ∧ (popMany vs.length (pushAll vs s)).2.sp = s.sp ∧
    ∀ a : Byte, (popMany vs.length (pushAll vs s)).2.memRead a =
      if (s.sp - 1 - a).toNat < vs.length then 0 else s.memRead a

/-! ### Call and return -/

/-- R130: CLL pushes its own address (at most 254, since its operand was fetched) and goes to the register's value, read
after the push; for `CLL r7` that is the new SP (decision D9). -/
def Obligations.CllPushesOwnAddress : Prop :=
  ∀ reg : Byte,
    encode (.cll reg) = [0x50, reg] ∧
    (∀ (h : reg.toNat < 8) (s : State), s.mem.wf → s.pc.toNat ≤ 254 → ∃ t, exec (.cll reg) s = .next t ∧
      t.sp.toNat = (s.sp.toNat + 255) % 256 ∧ t.sp = s.decSp.sp ∧ (t.memRead s.decSp.sp).toNat = s.pc.toNat ∧
      t.pc.toNat = (if reg.toNat = 7 then t.sp.toNat else (s.x ⟨reg.toNat, h⟩).toNat) ∧
      SameMemExcept s.decSp.sp s t ∧ SameRegsExcept (· = 7) s t ∧ t.out = s.out ∧ SameControl s t) ∧
    (8 ≤ reg.toNat → ∀ s : State, exec (.cll reg) s = .next (s.faulted 3 1 (reg.setWidth 9))) ∧
    (∀ s : State, s.enabled = true → s.byteAfterPc 0 = 0x50 → s.pc.toNat = 255 → step s = .next (s.faulted 3 0 256))

/-- R131: RET goes to the popped byte plus 2, in full, zeroes the cell and raises SP; a popped byte of 254 or 255 makes the
next fetch fault. -/
def Obligations.RetResumesTwoPast : Prop :=
  encode .ret = [0x11] ∧
  (∀ s : State, s.mem.wf → ∃ t, exec .ret s = .next t ∧ t.pc.toNat = (s.memRead s.sp).toNat + 2 ∧
    t.memRead s.sp = 0 ∧ t.sp.toNat = (s.sp.toNat + 1) % 256 ∧ SameMemExcept s.sp s t ∧ SameRegsExcept (· = 7) s t ∧
    t.out = s.out ∧ SameControl s t) ∧
  (∀ s t : State, exec .ret s = .next t → s.enabled = true → 254 ≤ (s.memRead s.sp).toNat →
    step t = .next (t.faulted 3 0 t.pc)) ∧
  (∀ s : State, s.enabled = true → 255 < s.pc.toNat → step s = .next (s.faulted 3 0 s.pc))

/-- R132: a call at A whose callee begins with RET resumes at A + 2 with SP restored and the frame cell 0. The callee's
first byte is read after the call has pushed its frame. -/
def Obligations.CallThenReturnResumes : Prop :=
  ∀ (s t : State) (reg : Byte), s.mem.wf → s.enabled = true → reg.toNat < 8 → s.DecodesTo (.cll reg) →
    step s = .next t → t.byteAfterPc 0 = 0x11 →
    ∃ u, step t = .next u ∧ u.pc.toNat = s.pc.toNat + 2 ∧ u.sp = s.sp ∧ u.memRead t.sp = 0 ∧ SameMemExcept t.sp s u ∧
      SameRegsExcept (fun _ => False) s u ∧ u.run = .running

/-! ### Memory -/

/-- R47: a read of a cell returns the value of the latest write to it, or what it held before where none was made. -/
def Obligations.ReadReturnsLatestWrite : Prop :=
  ∀ (m : Memory) (writes : List (Byte × Byte)) (a : Byte), m.wf →
    (writes.foldl (fun m w => m.write w.1 w.2) m).read a =
      match writes.reverse.find? fun w => w.1 == a with
      | some w => w.2
      | none => m.read a

/-- R29: the memory is its 256 cells and nothing else: canonical memories that read the same are equal. -/
def Obligations.MemoryIsItsCells : Prop :=
  ∀ m n : Memory, m.wf → n.wf → (∀ a, m.read a = n.read a) → m = n

/-- R50: a POP that zeroes the next instruction's opcode makes the next step fault InvalidOpcode with byte 0. -/
def Obligations.ZeroedNextOpcodeFaults : Prop :=
  ∀ (s : State) (reg : Byte), s.mem.wf → s.enabled = true → reg.toNat < 7 → s.DecodesTo (.pop reg) →
    s.sp.toNat = s.pc.toNat + 2 →
    ∃ t, step s = .next t ∧ t.run = .running ∧ t.pc.toNat = s.pc.toNat + 2 ∧ step t = .next (t.faulted 1 0 0)

/-- R168: a PSH whose stack cell is its own operand byte completes with the operand it fetched, and leaves the pushed
value in that cell. -/
def Obligations.SelfOverwritingPshCompletes : Prop :=
  ∀ (s : State) (reg : Byte) (h : reg.toNat < 8), s.mem.wf → s.enabled = true → s.DecodesTo (.psh reg) →
    s.decSp.sp.toNat = s.pc.toNat + 1 →
    ∃ t, step s = .next t ∧ s.byteAfterPc 1 = reg ∧ t.pc.toNat = s.pc.toNat + 2 ∧
      t.memRead (BitVec.ofNat 8 (s.pc.toNat + 1)) = if reg.toNat = 7 then s.decSp.sp else s.x ⟨reg.toNat, h⟩

/-! ### Faults -/

/-- R140, R144: what each fault records. -/
def Obligations.FaultRecordsCause : Prop :=
  ∀ (s : State) (b : Byte) (index : PcWord),
    s.finish (.error (.invalidOpcode b)) = .next (s.faulted 1 0 (b.setWidth 9)) ∧
    s.finish (.error .invalidAluOperation) = .next (s.faulted 2 0 0) ∧
    s.finish (.error (.outOfBounds .memory index)) = .next (s.faulted 3 0 index) ∧
    s.finish (.error (.outOfBounds .register index)) = .next (s.faulted 3 1 index)

/-- R63, R141: the opcode bytes outside the map are the 247 the rule lists, and fetching one faults InvalidOpcode with its
address and the byte. -/
def Obligations.IllegalOpcodeFaults : Prop :=
  (∀ b : Byte, IllegalByte b ↔ b ∉ ([0x01, 0x82, 0x47, 0xA0, 0xA2, 0x45, 0x46, 0x50, 0x11] : List Byte)) ∧
  ∀ s : State, s.enabled = true → s.pc.toNat ≤ 255 → IllegalByte (s.byteAfterPc 0) →
    step s = .next (s.faulted 1 0 ((s.byteAfterPc 0).setWidth 9))

/-- R21, R84: the first register operand above 7 faults with that index and changes nothing else; with every register
operand in 0..7 the execute phase raises no fault. -/
def Obligations.RegisterOperandCheck : Prop :=
  ∀ (i : Instr) (s : State),
    (∀ b, i.regOperands.find? (fun b => decide (8 ≤ b.toNat)) = some b → exec i s = .next (s.faulted 3 1 (b.setWidth 9))) ∧
    (i.WellFormed → ∃ t, exec i s = .next t ∧ t.fault = s.fault ∧ (t.run = s.run ∨ i = .hlt))

/-- R144: a step that ends in FAULTED has raised some F(info): the record holds CODE(F), SPACE(F), the pc and the info, the
run state is FAULTED, nothing else has changed, and no further step is enabled. -/
def Obligations.FaultsArePrecise : Prop :=
  ∀ s t : State, s.enabled = true → step s = .next t → t.run = .faulted →
    PreciseFault s t ∧ (∃ e : FaultCause, t.fault =
      { valid := true, code := e.code, space := e.spaceBit, pc := s.pc, info := e.info }) ∧ t.enabled = false

/-- R145: the order of the checks; the first that fails is the fault taken, and where none fails none is taken. -/
def Obligations.FaultPriority : Prop :=
  ∀ s : State, s.enabled = true →
    if 255 < s.pc.toNat then step s = .next (s.faulted 3 0 s.pc)
    else if s.byteAfterPc 0 ∉ ([0x01, 0x82, 0x47, 0xA0, 0xA2, 0x45, 0x46, 0x50, 0x11] : List Byte) then
      step s = .next (s.faulted 1 0 ((s.byteAfterPc 0).setWidth 9))
    else if s.byteAfterPc 0 ∈ ([0x82, 0x47, 0xA0, 0xA2, 0x45, 0x46, 0x50] : List Byte) ∧ 255 < s.pc.toNat + 1 then
      step s = .next (s.faulted 3 0 256)
    else if s.byteAfterPc 0 ∈ ([0x82, 0xA0, 0xA2] : List Byte) ∧ 255 < s.pc.toNat + 2 then
      step s = .next (s.faulted 3 0 256)
    else if s.byteAfterPc 0 ∈ ([0x82, 0x47, 0xA0, 0xA2, 0x45, 0x46, 0x50] : List Byte) ∧ 7 < (s.byteAfterPc 1).toNat then
      step s = .next (s.faulted 3 1 ((s.byteAfterPc 1).setWidth 9))
    else if s.byteAfterPc 0 ∈ ([0xA0, 0xA2] : List Byte) ∧ 7 < (s.byteAfterPc 2).toNat then
      step s = .next (s.faulted 3 1 ((s.byteAfterPc 2).setWidth 9))
    else ∃ t, step s = .next t ∧ t.run ≠ .faulted ∧ t.fault = s.fault

/-- R27: no instruction reads the fault record: with another record in it, a step does the same, and leaves that record
unless it faults. -/
def Obligations.FaultRecordNeverRead : Prop :=
  ∀ (s t : State) (f : FaultRecord), s.enabled = true → step s = .next t →
    step { s with fault := f } = .next (if t.run = .faulted then t else { t with fault := f })
end

