-- ==== Sys2Proof/Laws/Decode.lean ====
section
/-!
SUPPORT. What the pieces of the decoder and the encoder answer, each said once.
-/

namespace Sys2Proof

/-- The opcode map, read the other way: a byte selects an opcode exactly when it is that opcode's byte (R61, R62). -/
theorem opcodeOf_eq_some_iff (b : Byte) (op : Opcode) : opcodeOf b = some op ↔ b = opcodeByte op := by
  constructor
  · intro h
    unfold opcodeOf at h
    split at h <;> first | (cases h; rfl) | cases h
  · rintro rfl
    cases op <;> rfl

theorem withNone_eq_some_iff (i j : Instr) (bs : List Byte) : withNone i bs = some j ↔ bs = [] ∧ i = j := by
  cases bs <;> simp [withNone]

theorem withOne_eq_some_iff (mk : Byte → Instr) (j : Instr) (bs : List Byte) :
    withOne mk bs = some j ↔ ∃ a, bs = [a] ∧ mk a = j := by
  rcases bs with _ | ⟨a, _ | ⟨b, bs⟩⟩ <;> simp [withOne]

theorem withTwo_eq_some_iff (mk : Byte → Byte → Instr) (j : Instr) (bs : List Byte) :
    withTwo mk bs = some j ↔ ∃ a b, bs = [a, b] ∧ mk a b = j := by
  rcases bs with _ | ⟨a, _ | ⟨b, _ | ⟨c, bs⟩⟩⟩ <;> simp [withTwo]

/-- An opcode and operand bytes make an instruction exactly when they are its own. -/
theorem withOperands_eq_some_iff (op : Opcode) (bs : List Byte) (i : Instr) :
    withOperands op bs = some i ↔ i.opcode = op ∧ i.operands = bs := by
  constructor
  · intro h
    cases op <;> simp only [withOperands, withNone_eq_some_iff, withOne_eq_some_iff, withTwo_eq_some_iff] at h
    case hlt | ret => obtain ⟨rfl, rfl⟩ := h; exact ⟨rfl, rfl⟩
    case prn | psh | pop | cll => obtain ⟨a, rfl, rfl⟩ := h; exact ⟨rfl, rfl⟩
    case ldi | add | mlt => obtain ⟨a, b, rfl, rfl⟩ := h; exact ⟨rfl, rfl⟩
  · rintro ⟨rfl, rfl⟩
    cases i <;> rfl

/-- An instruction has as many operand bytes as its opcode says (R61). -/
theorem operands_length (i : Instr) : i.operands.length = nops i.opcode := by
  cases i <;> rfl

end Sys2Proof
end

