-- ==== Sys2Proof/Laws/State.lean ====
section
/-!
SUPPORT. One lemma per field per update of the state, each true by rfl, and what the register accessors read after an
update.
-/

namespace Sys2Proof.Machine

variable (s : State)

/-! ### setX -/

@[simp] theorem State.setX_regs (r : Reg) (v : Byte) : (s.setX r v).regs = s.regs.set r v := rfl
@[simp] theorem State.setX_pc (r : Reg) (v : Byte) : (s.setX r v).pc = s.pc := rfl
@[simp] theorem State.setX_mem (r : Reg) (v : Byte) : (s.setX r v).mem = s.mem := rfl
@[simp] theorem State.setX_run (r : Reg) (v : Byte) : (s.setX r v).run = s.run := rfl
@[simp] theorem State.setX_fault (r : Reg) (v : Byte) : (s.setX r v).fault = s.fault := rfl
@[simp] theorem State.setX_out (r : Reg) (v : Byte) : (s.setX r v).out = s.out := rfl
@[simp] theorem State.setX_held (r : Reg) (v : Byte) : (s.setX r v).held = s.held := rfl

/-! ### setSp -/

@[simp] theorem State.setSp_regs (v : Byte) : (s.setSp v).regs = s.regs.set spReg v := rfl
@[simp] theorem State.setSp_pc (v : Byte) : (s.setSp v).pc = s.pc := rfl
@[simp] theorem State.setSp_mem (v : Byte) : (s.setSp v).mem = s.mem := rfl
@[simp] theorem State.setSp_run (v : Byte) : (s.setSp v).run = s.run := rfl
@[simp] theorem State.setSp_fault (v : Byte) : (s.setSp v).fault = s.fault := rfl
@[simp] theorem State.setSp_out (v : Byte) : (s.setSp v).out = s.out := rfl
@[simp] theorem State.setSp_held (v : Byte) : (s.setSp v).held = s.held := rfl

/-! ### memWrite -/

@[simp] theorem State.memWrite_regs (a v : Byte) : (s.memWrite a v).regs = s.regs := rfl
@[simp] theorem State.memWrite_pc (a v : Byte) : (s.memWrite a v).pc = s.pc := rfl
@[simp] theorem State.memWrite_mem (a v : Byte) : (s.memWrite a v).mem = s.mem.write a v := rfl
@[simp] theorem State.memWrite_run (a v : Byte) : (s.memWrite a v).run = s.run := rfl
@[simp] theorem State.memWrite_fault (a v : Byte) : (s.memWrite a v).fault = s.fault := rfl
@[simp] theorem State.memWrite_out (a v : Byte) : (s.memWrite a v).out = s.out := rfl
@[simp] theorem State.memWrite_held (a v : Byte) : (s.memWrite a v).held = s.held := rfl

/-! ### setPc -/

@[simp] theorem State.setPc_regs (p : PcWord) : (s.setPc p).regs = s.regs := rfl
@[simp] theorem State.setPc_pc (p : PcWord) : (s.setPc p).pc = p := rfl
@[simp] theorem State.setPc_mem (p : PcWord) : (s.setPc p).mem = s.mem := rfl
@[simp] theorem State.setPc_run (p : PcWord) : (s.setPc p).run = s.run := rfl
@[simp] theorem State.setPc_fault (p : PcWord) : (s.setPc p).fault = s.fault := rfl
@[simp] theorem State.setPc_out (p : PcWord) : (s.setPc p).out = s.out := rfl
@[simp] theorem State.setPc_held (p : PcWord) : (s.setPc p).held = s.held := rfl

/-! ### emit -/

@[simp] theorem State.emit_regs (v : Byte) : (s.emit v).regs = s.regs := rfl
@[simp] theorem State.emit_pc (v : Byte) : (s.emit v).pc = s.pc := rfl
@[simp] theorem State.emit_mem (v : Byte) : (s.emit v).mem = s.mem := rfl
@[simp] theorem State.emit_run (v : Byte) : (s.emit v).run = s.run := rfl
@[simp] theorem State.emit_fault (v : Byte) : (s.emit v).fault = s.fault := rfl
@[simp] theorem State.emit_out (v : Byte) : (s.emit v).out = s.out ++ [v] := rfl
@[simp] theorem State.emit_held (v : Byte) : (s.emit v).held = s.held := rfl

/-! ### setRun -/

@[simp] theorem State.setRun_regs (r : RunState) : (s.setRun r).regs = s.regs := rfl
@[simp] theorem State.setRun_pc (r : RunState) : (s.setRun r).pc = s.pc := rfl
@[simp] theorem State.setRun_mem (r : RunState) : (s.setRun r).mem = s.mem := rfl
@[simp] theorem State.setRun_run (r : RunState) : (s.setRun r).run = r := rfl
@[simp] theorem State.setRun_fault (r : RunState) : (s.setRun r).fault = s.fault := rfl
@[simp] theorem State.setRun_out (r : RunState) : (s.setRun r).out = s.out := rfl
@[simp] theorem State.setRun_held (r : RunState) : (s.setRun r).held = s.held := rfl

/-! ### raise -/

@[simp] theorem State.raise_regs (e : FaultCause) : (s.raise e).regs = s.regs := rfl
@[simp] theorem State.raise_pc (e : FaultCause) : (s.raise e).pc = s.pc := rfl
@[simp] theorem State.raise_mem (e : FaultCause) : (s.raise e).mem = s.mem := rfl
@[simp] theorem State.raise_run (e : FaultCause) : (s.raise e).run = .faulted := rfl
@[simp] theorem State.raise_fault (e : FaultCause) : (s.raise e).fault = recordOf e.code e.spaceBit s.pc e.info := rfl
@[simp] theorem State.raise_out (e : FaultCause) : (s.raise e).out = s.out := rfl
@[simp] theorem State.raise_held (e : FaultCause) : (s.raise e).held = s.held := rfl

/-! ### release -/

@[simp] theorem State.release_regs : (s.release).regs = s.regs := rfl
@[simp] theorem State.release_pc : (s.release).pc = s.pc := rfl
@[simp] theorem State.release_mem : (s.release).mem = s.mem := rfl
@[simp] theorem State.release_run : (s.release).run = .running := rfl
@[simp] theorem State.release_fault : (s.release).fault = s.fault := rfl
@[simp] theorem State.release_out : (s.release).out = s.out := rfl
@[simp] theorem State.release_held : (s.release).held = false := rfl

/-! ### decSp -/

@[simp] theorem State.decSp_regs : (s.decSp).regs = s.regs.set spReg (s.sp - 1) := rfl
@[simp] theorem State.decSp_pc : (s.decSp).pc = s.pc := rfl
@[simp] theorem State.decSp_mem : (s.decSp).mem = s.mem := rfl
@[simp] theorem State.decSp_run : (s.decSp).run = s.run := rfl
@[simp] theorem State.decSp_fault : (s.decSp).fault = s.fault := rfl
@[simp] theorem State.decSp_out : (s.decSp).out = s.out := rfl
@[simp] theorem State.decSp_held : (s.decSp).held = s.held := rfl

/-! ### push -/

@[simp] theorem State.push_regs (v : Byte) : (s.push v).regs = s.regs.set spReg (s.sp - 1) := rfl
@[simp] theorem State.push_pc (v : Byte) : (s.push v).pc = s.pc := rfl
@[simp] theorem State.push_run (v : Byte) : (s.push v).run = s.run := rfl
@[simp] theorem State.push_fault (v : Byte) : (s.push v).fault = s.fault := rfl
@[simp] theorem State.push_out (v : Byte) : (s.push v).out = s.out := rfl
@[simp] theorem State.push_held (v : Byte) : (s.push v).held = s.held := rfl

/-! ### popClean -/

@[simp] theorem State.popClean_regs : (s.popClean).regs = s.regs.set spReg (s.sp + 1) := rfl
@[simp] theorem State.popClean_pc : (s.popClean).pc = s.pc := rfl
@[simp] theorem State.popClean_mem : (s.popClean).mem = s.mem.write s.sp 0 := rfl
@[simp] theorem State.popClean_run : (s.popClean).run = s.run := rfl
@[simp] theorem State.popClean_fault : (s.popClean).fault = s.fault := rfl
@[simp] theorem State.popClean_out : (s.popClean).out = s.out := rfl
@[simp] theorem State.popClean_held : (s.popClean).held = s.held := rfl

/-! ### pcUpdate touches the pc alone -/

@[simp] theorem State.pcUpdate_regs (op : Opcode) : (s.pcUpdate op).regs = s.regs := by cases op <;> rfl
@[simp] theorem State.pcUpdate_mem (op : Opcode) : (s.pcUpdate op).mem = s.mem := by cases op <;> rfl
@[simp] theorem State.pcUpdate_run (op : Opcode) : (s.pcUpdate op).run = s.run := by cases op <;> rfl
@[simp] theorem State.pcUpdate_fault (op : Opcode) : (s.pcUpdate op).fault = s.fault := by cases op <;> rfl
@[simp] theorem State.pcUpdate_out (op : Opcode) : (s.pcUpdate op).out = s.out := by cases op <;> rfl
@[simp] theorem State.pcUpdate_held (op : Opcode) : (s.pcUpdate op).held = s.held := by cases op <;> rfl

@[simp] theorem State.pcUpdate_hlt : s.pcUpdate .hlt = s := rfl
@[simp] theorem State.pcUpdate_cll : s.pcUpdate .cll = s := rfl
@[simp] theorem State.pcUpdate_ret : s.pcUpdate .ret = s := rfl
@[simp] theorem State.pcUpdate_pc_ldi : (s.pcUpdate .ldi).pc = s.pc + 3 := rfl
@[simp] theorem State.pcUpdate_pc_prn : (s.pcUpdate .prn).pc = s.pc + 2 := rfl
@[simp] theorem State.pcUpdate_pc_add : (s.pcUpdate .add).pc = s.pc + 3 := rfl
@[simp] theorem State.pcUpdate_pc_mlt : (s.pcUpdate .mlt).pc = s.pc + 3 := rfl
@[simp] theorem State.pcUpdate_pc_psh : (s.pcUpdate .psh).pc = s.pc + 2 := rfl
@[simp] theorem State.pcUpdate_pc_pop : (s.pcUpdate .pop).pc = s.pc + 2 := rfl

/-! ### What the accessors read after an update -/

/-- A register written reads as the value written. -/
@[simp] theorem State.x_setX_same (r : Reg) (v : Byte) : (s.setX r v).x r = v := by
  simp [State.x]

/-- A register write leaves every other register. -/
theorem State.x_setX_ne (v : Byte) {r q : Reg} (h : q ≠ r) : (s.setX r v).x q = s.x q := by
  have h' : (r : Nat) ≠ q := fun e => h (Fin.ext e.symm)
  simp [State.x, Vector.getElem_set_ne, h']

/-- Reading any register after a register write. -/
theorem State.x_setX (r q : Reg) (v : Byte) : (s.setX r v).x q = if q = r then v else s.x q := by
  by_cases h : q = r
  · subst h; simp
  · simp [h, State.x_setX_ne]

/-- The registers alone decide what a register reads. -/
theorem State.x_congr {s t : State} (h : t.regs = s.regs) (r : Reg) : t.x r = s.x r := by
  simp [State.x, h]

/-- The memory alone decides what a cell reads. -/
theorem State.memRead_congr {s t : State} (h : t.mem = s.mem) (a : Byte) : t.memRead a = s.memRead a := by
  simp [State.memRead, h]

@[simp] theorem State.x_memWrite (a v : Byte) (r : Reg) : (s.memWrite a v).x r = s.x r := rfl
@[simp] theorem State.x_setPc (p : PcWord) (r : Reg) : (s.setPc p).x r = s.x r := rfl
@[simp] theorem State.x_emit (v : Byte) (r : Reg) : (s.emit v).x r = s.x r := rfl
@[simp] theorem State.x_setRun (q : RunState) (r : Reg) : (s.setRun q).x r = s.x r := rfl
@[simp] theorem State.x_raise (e : FaultCause) (r : Reg) : (s.raise e).x r = s.x r := rfl
@[simp] theorem State.x_pcUpdate (op : Opcode) (r : Reg) : (s.pcUpdate op).x r = s.x r :=
  State.x_congr (State.pcUpdate_regs s op) r
@[simp] theorem State.sp_memWrite (a v : Byte) : (s.memWrite a v).sp = s.sp := rfl
@[simp] theorem State.sp_setPc (p : PcWord) : (s.setPc p).sp = s.sp := rfl
@[simp] theorem State.sp_setSp (v : Byte) : (s.setSp v).sp = v := State.x_setX_same s spReg v
@[simp] theorem State.sp_decSp : s.decSp.sp = s.sp - 1 := State.sp_setSp s _
@[simp] theorem State.sp_pcUpdate (op : Opcode) : (s.pcUpdate op).sp = s.sp := State.x_pcUpdate s op spReg
@[simp] theorem State.memRead_setX (r : Reg) (v a : Byte) : (s.setX r v).memRead a = s.memRead a := rfl
@[simp] theorem State.memRead_setSp (v a : Byte) : (s.setSp v).memRead a = s.memRead a := rfl
@[simp] theorem State.memRead_setPc (p : PcWord) (a : Byte) : (s.setPc p).memRead a = s.memRead a := rfl
@[simp] theorem State.memRead_emit (v a : Byte) : (s.emit v).memRead a = s.memRead a := rfl
@[simp] theorem State.memRead_setRun (q : RunState) (a : Byte) : (s.setRun q).memRead a = s.memRead a := rfl
@[simp] theorem State.memRead_raise (e : FaultCause) (a : Byte) : (s.raise e).memRead a = s.memRead a := rfl
@[simp] theorem State.memRead_pcUpdate (op : Opcode) (a : Byte) : (s.pcUpdate op).memRead a = s.memRead a :=
  State.memRead_congr (State.pcUpdate_mem s op) a

end Sys2Proof.Machine
end

