-- ==== Sys2Proof/Laws/Memory.lean ====
section
/-!
SUPPORT. The memory: a read after a write, the cells a write leaves alone, and the canonical form, which every operation
that writes memory keeps (20_memory.md rules R41, R47).
-/

namespace Sys2Proof.Machine

/-- A store leaves every other address. -/
theorem lookupCell_storeCell_ne (l : List Host.Cell) {a b : Nat} (v : Byte) (h : b ≠ a) :
    lookupCell (storeCell l a v) b = lookupCell l b := by
  induction l with
  | nil =>
    unfold storeCell
    split <;> simp [lookupCell, h.symm]
  | cons c rest ih =>
    obtain ⟨d, w⟩ := c
    unfold storeCell
    split
    · split <;> simp [lookupCell, h.symm]
    · split
      · rename_i _ e
        subst e
        split <;> simp [lookupCell, h.symm]
      · simp [lookupCell, ih]

/-- An address below every listed one reads as unlisted. -/
theorem lookupCell_of_lt (l : List Host.Cell) (a : Nat) (h : ∀ c ∈ l, a < c.1) : lookupCell l a = Memory.unlisted := by
  induction l with
  | nil => rfl
  | cons c rest ih =>
    obtain ⟨d, w⟩ := c
    have hd : a < d := h (d, w) (by simp)
    have : d ≠ a := by omega
    simp only [lookupCell, this, if_false]
    exact ih fun c hc => h c (by simp [hc])

/-- In rising order, a store reads back. -/
theorem lookupCell_storeCell_same (l : List Host.Cell) (a : Nat) (v : Byte)
    (h : l.Pairwise (fun c d => c.1 < d.1)) : lookupCell (storeCell l a v) a = v := by
  induction l with
  | nil =>
    unfold storeCell
    split <;> simp_all [lookupCell]
  | cons c rest ih =>
    obtain ⟨d, w⟩ := c
    rw [List.pairwise_cons] at h
    unfold storeCell
    split
    · rename_i had
      split
      · rename_i hv
        rw [hv]
        refine lookupCell_of_lt _ _ fun c hc => ?_
        rcases List.mem_cons.1 hc with rfl | hc
        · exact had
        · exact Nat.lt_trans had (h.1 c hc)
      · simp [lookupCell]
    · split
      · rename_i _ e
        subst e
        split
        · rename_i hv
          rw [hv]
          exact lookupCell_of_lt _ _ h.1
        · simp [lookupCell]
      · rename_i _ hne
        have : d ≠ a := fun e => hne e.symm
        simp [lookupCell, this, ih h.2]

/-- Every cell listed after a store was listed before it, or is the one stored, which is then not the unlisted value. -/
theorem mem_storeCell (l : List Host.Cell) (a : Nat) (v : Byte) (c : Host.Cell) (h : c ∈ storeCell l a v) :
    c ∈ l ∨ (c = (a, v) ∧ v ≠ Memory.unlisted) := by
  induction l with
  | nil =>
    unfold storeCell at h
    split at h <;> simp_all
  | cons e rest ih =>
    obtain ⟨d, w⟩ := e
    unfold storeCell at h
    split at h
    · split at h
      · exact .inl h
      · rcases List.mem_cons.1 h with rfl | h
        · exact .inr ⟨rfl, ‹_›⟩
        · exact .inl h
    · split at h
      · split at h
        · exact .inl (List.mem_cons_of_mem _ h)
        · rcases List.mem_cons.1 h with rfl | h
          · exact .inr ⟨rfl, ‹_›⟩
          · exact .inl (List.mem_cons_of_mem _ h)
      · rcases List.mem_cons.1 h with rfl | h
        · exact .inl (by simp)
        · exact (ih h).imp (List.mem_cons_of_mem _) id

/-- A store keeps the addresses in rising order. -/
theorem storeCell_pairwise (l : List Host.Cell) (a : Nat) (v : Byte) (h : l.Pairwise (fun c d => c.1 < d.1)) :
    (storeCell l a v).Pairwise (fun c d => c.1 < d.1) := by
  induction l with
  | nil =>
    unfold storeCell
    split <;> simp
  | cons e rest ih =>
    obtain ⟨d, w⟩ := e
    have h' := List.pairwise_cons.1 h
    unfold storeCell
    split
    · rename_i had
      split
      · exact h
      · refine List.pairwise_cons.2 ⟨fun c hc => ?_, h⟩
        rcases List.mem_cons.1 hc with rfl | hc
        · exact had
        · exact Nat.lt_trans had (h'.1 c hc)
    · split
      · rename_i _ e
        subst e
        split
        · exact h'.2
        · exact List.pairwise_cons.2 ⟨h'.1, h'.2⟩
      · rename_i h1 h2
        refine List.pairwise_cons.2 ⟨fun c hc => ?_, ih h'.2⟩
        rcases mem_storeCell rest a v c hc with hc | ⟨rfl, _⟩
        · exact h'.1 c hc
        · show d < a
          omega

/-- A write keeps the canonical form. -/
theorem Memory.wf_write {m : Memory} (a v : Byte) (h : m.wf) : (m.write a v).wf := by
  refine ⟨storeCell_pairwise _ _ _ h.1, fun c hc => ?_⟩
  rcases mem_storeCell _ _ _ _ hc with hc | ⟨rfl, hv⟩
  · exact h.2 c hc
  · exact ⟨a.isLt, hv⟩

/-- The memory after reset is canonical. -/
theorem Memory.wf_reset : State.reset.mem.wf := by decide

/-- In a canonical memory, a write reads back. -/
theorem Memory.read_write_same {m : Memory} (a v : Byte) (h : m.wf) : (m.write a v).read a = v :=
  lookupCell_storeCell_same _ _ _ h.1

/-- A write leaves every other cell. -/
theorem Memory.read_write_ne (m : Memory) {a b : Byte} (v : Byte) (h : b ≠ a) : (m.write a v).read b = m.read b :=
  lookupCell_storeCell_ne _ _ fun e => h (BitVec.eq_of_toNat_eq e)

/-- `MemWrite` then `MemRead` of the same cell. -/
theorem State.memRead_memWrite_same {s : State} (a v : Byte) (h : s.mem.wf) : (s.memWrite a v).memRead a = v :=
  Memory.read_write_same a v h

/-- `MemWrite` leaves every other cell. -/
theorem State.memRead_memWrite_ne (s : State) {a b : Byte} (v : Byte) (h : b ≠ a) :
    (s.memWrite a v).memRead b = s.memRead b :=
  Memory.read_write_ne s.mem v h

/-- What a push leaves in memory. -/
@[simp] theorem State.push_mem (s : State) (v : Byte) : (s.push v).mem = s.mem.write (s.sp - 1) v := by
  simp [State.push, State.memWrite]

/-- A checked write that is made keeps the canonical form. -/
theorem State.memWriteAt_wf {s t : State} {addr : Nat} {v : Byte} (e : s.memWriteAt addr v = .ok t) (h : s.mem.wf) :
    t.mem.wf := by
  unfold State.memWriteAt at e
  split at e <;> cases e
  exact Memory.wf_write _ _ h

/-- A placed sequence of bytes keeps the canonical form. -/
theorem State.placeBytes_wf (s : State) (addr : Nat) (bs : List Byte) (h : s.mem.wf) :
    (s.placeBytes addr bs).mem.wf := by
  induction bs generalizing s addr with
  | nil => exact h
  | cons b bs ih =>
    unfold State.placeBytes
    split
    · rename_i t ht
      exact ih t _ (State.memWriteAt_wf ht h)
    · exact h

end Sys2Proof.Machine
end

