-- ==== Sys2Proof/Laws/Ops.lean ====
section
/-!
SUPPORT. For each shared operation of the machine, everything it can do, said once.
-/

namespace Sys2Proof.Machine

/-! ### The register check and the operand forms -/

/-- An index in 0..7 passes the check (R21). -/
theorem checkReg_ok {i : Byte} (h : i.toNat < 8) : checkReg i = .ok ⟨i.toNat, h⟩ := by
  simp [checkReg, h]

/-- An index in 8..255 fails it (R21). -/
theorem checkReg_error {i : Byte} (h : 8 ≤ i.toNat) :
    checkReg i = .error (.outOfBounds .register (i.setWidth 9)) := by
  simp [checkReg, Nat.not_lt.2 h]

/-- What an instruction with one register operand does: its effect, or the fault of the register check. -/
theorem withReg_cases (reg : Byte) (s : State) (k : Reg → State) :
    (∃ h : reg.toNat < 8, withReg reg s k = .next (k ⟨reg.toNat, h⟩)) ∨
    (8 ≤ reg.toNat ∧ withReg reg s k = .next (s.raise (.outOfBounds .register (reg.setWidth 9)))) := by
  by_cases h : reg.toNat < 8
  · exact .inl ⟨h, by simp [withReg, checkReg_ok h, State.finish]⟩
  · have h := Nat.not_lt.1 h
    exact .inr ⟨h, by simp [withReg, checkReg_error h, State.finish]⟩

/-- With a legal register, the instruction has its effect. -/
theorem withReg_ok {reg : Byte} (s : State) (k : Reg → State) (h : reg.toNat < 8) :
    withReg reg s k = .next (k ⟨reg.toNat, h⟩) := by
  simp [withReg, checkReg_ok h, State.finish]

/-- With an illegal register, the instruction faults and does nothing else. -/
theorem withReg_error {reg : Byte} (s : State) (k : Reg → State) (h : 8 ≤ reg.toNat) :
    withReg reg s k = .next (s.raise (.outOfBounds .register (reg.setWidth 9))) := by
  simp [withReg, checkReg_error h, State.finish]

/-- With two legal registers, the rest of the instruction runs. -/
theorem withRegs_ok {regA regB : Byte} (s : State) (k : Reg → Reg → Except FaultCause State)
    (hA : regA.toNat < 8) (hB : regB.toNat < 8) :
    withRegs regA regB s k = s.finish (k ⟨regA.toNat, hA⟩ ⟨regB.toNat, hB⟩) := by
  simp [withRegs, checkReg_ok hA, checkReg_ok hB]

/-- operand1 is checked first (R84). -/
theorem withRegs_errorA {regA : Byte} (regB : Byte) (s : State) (k : Reg → Reg → Except FaultCause State)
    (hA : 8 ≤ regA.toNat) :
    withRegs regA regB s k = .next (s.raise (.outOfBounds .register (regA.setWidth 9))) := by
  simp [withRegs, checkReg_error hA, State.finish]

/-- operand2 is checked when operand1 has passed (R84). -/
theorem withRegs_errorB {regA regB : Byte} (s : State) (k : Reg → Reg → Except FaultCause State)
    (hA : regA.toNat < 8) (hB : 8 ≤ regB.toNat) :
    withRegs regA regB s k = .next (s.raise (.outOfBounds .register (regB.setWidth 9))) := by
  simp [withRegs, checkReg_ok hA, checkReg_error hB, State.finish]

/-! ### The bounds check and the checked read -/

/-- An address up to 255 passes the bounds check (R43). -/
theorem checkAddr_ok {a : Nat} (h : a < 256) : checkAddr a = .ok (BitVec.ofNat 8 a) := by
  simp [checkAddr, h]

/-- An address above 255 fails it (R43). -/
theorem checkAddr_error {a : Nat} (h : 256 ≤ a) :
    checkAddr a = .error (.outOfBounds .memory (BitVec.ofNat 9 a)) := by
  simp [checkAddr, Nat.not_lt.2 h]

/-- A checked read in range. -/
theorem State.memReadAt_ok (s : State) {a : Nat} (h : a < 256) :
    s.memReadAt a = .ok (s.memRead (BitVec.ofNat 8 a)) := by
  simp [State.memReadAt, checkAddr_ok h]

/-- A checked read out of range. -/
theorem State.memReadAt_error (s : State) {a : Nat} (h : 256 ≤ a) :
    s.memReadAt a = .error (.outOfBounds .memory (BitVec.ofNat 9 a)) := by
  simp [State.memReadAt, checkAddr_error h]

/-- A checked write in range. -/
theorem State.memWriteAt_ok (s : State) (v : Byte) {a : Nat} (h : a < 256) :
    s.memWriteAt a v = .ok (s.memWrite (BitVec.ofNat 8 a) v) := by
  simp [State.memWriteAt, checkAddr_ok h]

/-- A checked write out of range. -/
theorem State.memWriteAt_error (s : State) (v : Byte) {a : Nat} (h : 256 ≤ a) :
    s.memWriteAt a v = .error (.outOfBounds .memory (BitVec.ofNat 9 a)) := by
  simp [State.memWriteAt, checkAddr_error h]

/-! ### The ALU -/

/-- The ALU answers a state in which only `x[regA]` may differ, or raises InvalidALUOperation (R110). -/
theorem alu_cases (tag : AluTag) (a b : Reg) (s : State) :
    (tag = .add ∧ alu tag a b s = .ok (s.setX a (aluSum (s.x a) (s.x b)))) ∨
    (tag = .mlt ∧ alu tag a b s = .ok (s.setX a (aluProduct (s.x a) (s.x b)))) ∨
    (∃ n, tag = .other n ∧ alu tag a b s = .error .invalidAluOperation) := by
  cases tag with
  | add => exact .inl ⟨rfl, rfl⟩
  | mlt => exact .inr (.inl ⟨rfl, rfl⟩)
  | other n => exact .inr (.inr ⟨n, rfl, rfl⟩)

/-! ### The stack primitives -/

/-- push lowers SP by 1 modulo 256 (R120). -/
@[simp] theorem State.sp_push (s : State) (v : Byte) : (s.push v).sp = s.sp - 1 := State.sp_decSp s

/-- push leaves every register but SP (R120). -/
theorem State.x_push_ne (s : State) (v : Byte) {r : Reg} (h : r ≠ spReg) : (s.push v).x r = s.x r :=
  State.x_setX_ne s _ h

/-- The cell at SP after a push holds the byte pushed (R120). -/
theorem State.popRead_push {s : State} (v : Byte) (h : s.mem.wf) : (s.push v).popRead = v := by
  simp only [State.popRead, State.sp_push, State.memRead, State.push_mem]
  exact Memory.read_write_same _ _ h

/-- push leaves every cell but the one at the new SP (R120). -/
theorem State.memRead_push_ne (s : State) (v : Byte) {a : Byte} (h : a ≠ s.sp - 1) :
    (s.push v).memRead a = s.memRead a := by
  simp only [State.memRead, State.push_mem]
  exact Memory.read_write_ne _ _ h

/-- popClean raises SP by 1 modulo 256 (R121). -/
@[simp] theorem State.sp_popClean (s : State) : s.popClean.sp = s.sp + 1 := State.sp_setSp _ _

/-- popClean leaves every register but SP (R121). -/
theorem State.x_popClean_ne (s : State) {r : Reg} (h : r ≠ spReg) : s.popClean.x r = s.x r :=
  State.x_setX_ne _ _ h

/-- popClean zeroes the cell at SP (R121). -/
theorem State.memRead_popClean_same {s : State} (h : s.mem.wf) : s.popClean.memRead s.sp = 0 :=
  Memory.read_write_same _ _ h

/-- popClean leaves every other cell (R121). -/
theorem State.memRead_popClean_ne (s : State) {a : Byte} (h : a ≠ s.sp) : s.popClean.memRead a = s.memRead a :=
  Memory.read_write_ne _ _ h

/-- push keeps the canonical form. -/
theorem State.push_wf {s : State} (v : Byte) (h : s.mem.wf) : (s.push v).mem.wf := by
  simpa using Memory.wf_write (s.sp - 1) v h

/-- popClean keeps the canonical form. -/
theorem State.popClean_wf {s : State} (h : s.mem.wf) : s.popClean.mem.wf :=
  Memory.wf_write s.sp 0 h

end Sys2Proof.Machine
end

