-- ==== Sys2Proof/Laws/PerInstr.lean ====
section
/-!
SUPPORT. A family of facts per instruction as syntax: the shape of its encoding. Its length is what its opcode alone gives
(30_encoding.md rules R60, R67), and bits 7:6 of its first byte are its operand count (rule R62).
-/

namespace Sys2Proof.Laws.EncodingShape

/-- The encoding has the length its opcode gives, and the high two bits of its first byte are the operand count. -/
def Statement (i : Instr) : Prop :=
  (encode i).length = opcodeLength i.opcode ∧
  ∀ b, (encode i)[0]? = some b → (b.extractLsb' 6 2).toNat = nops i.opcode

/-- R62: bits 7:6 of each of the nine opcodes equal the operand count. -/
theorem opcodeByte_high (op : Opcode) : ((opcodeByte op).extractLsb' 6 2).toNat = nops op := by
  cases op <;> decide

theorem hlt : Statement .hlt := ⟨rfl, by rintro b ⟨⟩; exact opcodeByte_high _⟩
theorem ldi (reg imm : Byte) : Statement (.ldi reg imm) := ⟨rfl, by rintro b ⟨⟩; exact opcodeByte_high _⟩
theorem prn (reg : Byte) : Statement (.prn reg) := ⟨rfl, by rintro b ⟨⟩; exact opcodeByte_high _⟩
theorem add (regA regB : Byte) : Statement (.add regA regB) := ⟨rfl, by rintro b ⟨⟩; exact opcodeByte_high _⟩
theorem mlt (regA regB : Byte) : Statement (.mlt regA regB) := ⟨rfl, by rintro b ⟨⟩; exact opcodeByte_high _⟩
theorem psh (reg : Byte) : Statement (.psh reg) := ⟨rfl, by rintro b ⟨⟩; exact opcodeByte_high _⟩
theorem pop (reg : Byte) : Statement (.pop reg) := ⟨rfl, by rintro b ⟨⟩; exact opcodeByte_high _⟩
theorem cll (reg : Byte) : Statement (.cll reg) := ⟨rfl, by rintro b ⟨⟩; exact opcodeByte_high _⟩
theorem ret : Statement .ret := ⟨rfl, by rintro b ⟨⟩; exact opcodeByte_high _⟩

end Sys2Proof.Laws.EncodingShape
end

