-- ==== Sys2Proof/Laws/Step.lean ====
section
/-!
SUPPORT. What fetch and a step can do, said once; later proofs take a step apart with these and never unfold it.
-/

namespace Sys2Proof.Machine

/-- Every instruction answers a next state: its effect, or the fault its register check raises (R84). -/
theorem exec_next (i : Instr) (s : State) : ∃ t, exec i s = .next t := by
  have one : ∀ reg k, ∃ t, withReg reg s k = .next t := fun reg k =>
    (withReg_cases reg s k).elim (fun ⟨_, h⟩ => ⟨_, h⟩) fun ⟨_, h⟩ => ⟨_, h⟩
  have fin : ∀ r, ∃ t, s.finish r = .next t := fun r => by cases r <;> exact ⟨_, rfl⟩
  have two : ∀ a b k, ∃ t, withRegs a b s k = .next t := fun a b k => by
    by_cases hA : a.toNat < 8
    · by_cases hB : b.toNat < 8
      · rw [withRegs_ok s k hA hB]; exact fin _
      · exact ⟨_, withRegs_errorB s k hA (Nat.not_lt.1 hB)⟩
    · exact ⟨_, withRegs_errorA b s k (Nat.not_lt.1 hA)⟩
  cases i with
  | hlt => exact fin (.ok _)
  | ldi reg imm => exact one _ _
  | prn reg => exact one _ _
  | add regA regB => exact two _ _ _
  | mlt regA regB => exact two _ _ _
  | psh reg => exact one _ _
  | pop reg => exact one _ _
  | cll reg => exact one _ _
  | ret => exact fin (.ok _)

/-- What a step can do: nothing where it is not enabled, the fault its fetch raised, or the instruction it fetched. -/
theorem step_cases {s t : State} (h : step s = .next t) :
    (s.enabled = false ∧ t = s) ∨
    (s.enabled = true ∧ ∃ e, s.fetch = .error e ∧ t = s.raise e) ∨
    (s.enabled = true ∧ ∃ i, s.fetch = .ok i ∧ exec i s = .next t) := by
  unfold step at h
  split at h
  · rename_i en
    split at h
    · rename_i e he
      cases h
      exact .inr (.inl ⟨en, e, he, rfl⟩)
    · rename_i i hi
      exact .inr (.inr ⟨en, i, hi, h⟩)
  · rename_i en
    cases h
    exact .inl ⟨by simpa using en, rfl⟩

/-- Where a step is enabled and fetches an instruction, it is that instruction's exec. -/
theorem step_of_fetch_ok {s : State} {i : Instr} (en : s.enabled = true) (h : s.fetch = .ok i) : step s = exec i s := by
  simp [step, en, h]

/-- Where a step is enabled and its fetch raises, it takes that fault. -/
theorem step_of_fetch_error {s : State} {e : FaultCause} (en : s.enabled = true) (h : s.fetch = .error e) :
    step s = .next (s.raise e) := by
  simp [step, en, h, State.finish]

/-- The operand bytes fetched, where they are all in range. -/
theorem State.fetchOperands_ok (s : State) (n addr : Nat) (h : addr + n ≤ 256) :
    s.fetchOperands n addr = .ok ((List.range n).map fun k => s.memRead (BitVec.ofNat 8 (addr + k))) := by
  induction n generalizing addr with
  | zero => rfl
  | succ n ih =>
    have hm := s.memReadAt_ok (a := addr) (by omega)
    simp [State.fetchOperands, hm, ih (addr + 1) (by omega), List.range_succ_eq_map, Function.comp_def,
      Nat.add_assoc, Nat.add_comm 1]

/-- The operand fetch that runs past address 255 raises OutOfBounds(MEMORY, 256): it meets that address first. -/
theorem State.fetchOperands_error (s : State) (n addr : Nat) (h : 256 < addr + n) (h' : addr ≤ 256) :
    s.fetchOperands n addr = .error (.outOfBounds .memory 256) := by
  induction n generalizing addr with
  | zero => omega
  | succ n ih =>
    by_cases ha : addr < 256
    · have hm := s.memReadAt_ok (a := addr) ha
      simp [State.fetchOperands, hm, ih (addr + 1) (by omega) (by omega)]
    · have : addr = 256 := by omega
      subst this
      simp [State.fetchOperands, s.memReadAt_error (Nat.le_refl 256)]

/-- With exactly its number of operand bytes, an opcode makes an instruction of that opcode and those operands. -/
theorem withOperands_ok (op : Opcode) (bs : List Byte) (h : bs.length = nops op) :
    ∃ i, withOperands op bs = some i ∧ i.opcode = op ∧ i.operands = bs := by
  match op, bs, h with
  | .hlt, [], _ => exact ⟨_, rfl, rfl, rfl⟩
  | .ldi, [_, _], _ => exact ⟨_, rfl, rfl, rfl⟩
  | .prn, [_], _ => exact ⟨_, rfl, rfl, rfl⟩
  | .add, [_, _], _ => exact ⟨_, rfl, rfl, rfl⟩
  | .mlt, [_, _], _ => exact ⟨_, rfl, rfl, rfl⟩
  | .psh, [_], _ => exact ⟨_, rfl, rfl, rfl⟩
  | .pop, [_], _ => exact ⟨_, rfl, rfl, rfl⟩
  | .cll, [_], _ => exact ⟨_, rfl, rfl, rfl⟩
  | .ret, [], _ => exact ⟨_, rfl, rfl, rfl⟩

/-- What fetch can do (R82): an opcode address above 255, an illegal byte, an operand past address 255, or an instruction
whose opcode and operands are the bytes at the pc and after it. -/
theorem State.fetch_cases (s : State) :
    (256 ≤ s.pc.toNat ∧ s.fetch = .error (.outOfBounds .memory s.pc)) ∨
    (s.pc.toNat < 256 ∧ opcodeOf (s.memRead (BitVec.ofNat 8 s.pc.toNat)) = none ∧
      s.fetch = .error (.invalidOpcode (s.memRead (BitVec.ofNat 8 s.pc.toNat)))) ∨
    (s.pc.toNat < 256 ∧ ∃ op, opcodeOf (s.memRead (BitVec.ofNat 8 s.pc.toNat)) = some op ∧
      256 < s.pc.toNat + 1 + nops op ∧ s.fetch = .error (.outOfBounds .memory 256)) ∨
    (s.pc.toNat < 256 ∧ ∃ i, opcodeOf (s.memRead (BitVec.ofNat 8 s.pc.toNat)) = some i.opcode ∧
      s.pc.toNat + 1 + nops i.opcode ≤ 256 ∧
      i.operands = ((List.range (nops i.opcode)).map fun k => s.memRead (BitVec.ofNat 8 (s.pc.toNat + 1 + k))) ∧
      s.fetch = .ok i) := by
  by_cases hpc : s.pc.toNat < 256
  · have hm := s.memReadAt_ok hpc
    cases hop : opcodeOf (s.memRead (BitVec.ofNat 8 s.pc.toNat)) with
    | none => exact .inr (.inl ⟨hpc, rfl, by simp only [State.fetch, hm, hop]⟩)
    | some op =>
      by_cases hend : s.pc.toNat + 1 + nops op ≤ 256
      · have hf := s.fetchOperands_ok (nops op) (s.pc.toNat + 1) (by omega)
        obtain ⟨i, hi, ho, hb⟩ := withOperands_ok op
          ((List.range (nops op)).map fun k => s.memRead (BitVec.ofNat 8 (s.pc.toNat + 1 + k))) (by simp)
        subst ho
        exact .inr (.inr (.inr ⟨hpc, i, rfl, hend, hb, by simp only [State.fetch, hm, hop, hf, hi]⟩))
      · have hf := s.fetchOperands_error (nops op) (s.pc.toNat + 1) (by omega) (by omega)
        exact .inr (.inr (.inl ⟨hpc, op, rfl, by omega, by simp only [State.fetch, hm, hop, hf]⟩))
  · have hpc := Nat.not_lt.1 hpc
    refine .inl ⟨hpc, ?_⟩
    simp [State.fetch, s.memReadAt_error hpc]

end Sys2Proof.Machine
end

