-- ==== Sys2Proof/Tests/Slice0.lean ====
section
/-!
SUPPORT. The model's own tests: well-formedness, words written out from 30_encoding.md rule R61, single steps whose expected
results are the vectors of spec/95_test_vectors.md, and a witness for the hypotheses of every statement that has some.
-/

namespace Sys2Proof.Tests

open Sys2Proof.Machine

/-- The launch state but for the pc, with bytes placed at the pc. -/
def tState (pc : PcWord) (bytes : List Byte) : State :=
  (State.placeBytes { State.reset with pc := pc } pc.toNat bytes).release

/-- The state an outcome answers. -/
def tNext : Host.Outcome State Fault Refusal → State
  | .next s => s
  | .fault _ => State.reset
  | .refused _ => State.reset

/-! ### Well-formedness -/

theorem test_wf_accepts : Instr.WellFormed (.ldi 7 255) ∧ Instr.WellFormed (.add 0 7) ∧ Instr.WellFormed .ret := by decide
theorem test_wf_refuses_one_register :
    ¬ Instr.WellFormed (.ldi 8 0) ∧ ¬ Instr.WellFormed (.prn 8) ∧ ¬ Instr.WellFormed (.psh 255) ∧
    ¬ Instr.WellFormed (.pop 8) ∧ ¬ Instr.WellFormed (.cll 9) := by decide
theorem test_wf_refuses_two_registers :
    ¬ Instr.WellFormed (.add 8 0) ∧ ¬ Instr.WellFormed (.add 0 8) ∧ ¬ Instr.WellFormed (.mlt 8 0) ∧
    ¬ Instr.WellFormed (.mlt 0 8) := by decide

/-! ### Decoding: words written out bit by bit from R61 -/

theorem test_decode_hlt : decode [0b00000001] = .ok (.hlt, []) := rfl
theorem test_decode_ldi : decode [0b10000010, 0b00000000, 0b00001000] = .ok (.ldi 0 8, []) := rfl
theorem test_decode_prn : decode [0b01000111, 0b00000000] = .ok (.prn 0, []) := rfl
theorem test_decode_add : decode [0b10100000, 0b00000000, 0b00000001] = .ok (.add 0 1, []) := rfl
theorem test_decode_mlt : decode [0b10100010, 0b00000010, 0b00000011] = .ok (.mlt 2 3, []) := rfl
theorem test_decode_psh : decode [0b01000101, 0b00000111] = .ok (.psh 7, []) := rfl
theorem test_decode_pop : decode [0b01000110, 0b00000001] = .ok (.pop 1, []) := rfl
theorem test_decode_cll : decode [0b01010000, 0b00000001] = .ok (.cll 1, []) := rfl
theorem test_decode_ret : decode [0b00010001] = .ok (.ret, []) := rfl
theorem test_decode_rejects :
    decode [] = .error .noByte ∧ decode [0x00] = .error (.invalidOpcode 0x00) ∧
    decode [0xA1, 0, 0] = .error (.invalidOpcode 0xA1) ∧ decode [0x82, 0] = .error (.operandMissing .ldi) :=
  ⟨rfl, rfl, rfl, rfl⟩
theorem test_table_words :
    decodeTableWord 8 0x82 = some (.ldi 0 0) ∧ decodeTableWord 8 0x11 = some .ret ∧ decodeTableWord 8 0x00 = none ∧
    decodeTableWord 24 0x0100A0 = some (.add 0 1) := by decide
theorem test_fetch_word_runs :
    (step (State.reset.withFetchWord 8 0x01)) = exec .hlt (State.reset.withFetchWord 8 0x01) ∧
    (tNext (step (State.reset.withFetchWord 24 0x080082))).x 0 = 8 := ⟨rfl, by decide⟩

/-! ### Single steps: the vectors of 95_test_vectors.md -/

/-- E4, E5: HLT does not advance, and needs no operand byte at 255. -/
theorem test_hlt : (tNext (step (tState 11 [0x01]))).run = .halted ∧ (tNext (step (tState 11 [0x01]))).pc = 11 ∧
    (tNext (step (tState 255 [0x01]))).run = .halted := by decide
/-- V1, V3. -/
theorem test_ldi : (tNext (step (tState 0 [0x82, 0x00, 0x08]))).x 0 = 8 ∧ (tNext (step (tState 0 [0x82, 0x00, 0x08]))).pc = 3 ∧
    (tNext (step (tState 0 [0x82, 0x07, 0x10]))).sp = 0x10 := by decide
/-- E11: the pc after address 253 is 256, and the next step faults there. -/
theorem test_ldi_at_253 :
    let s := tNext (step (tState 253 [0x82, 0x00, 0xFF]))
    s.x 0 = 0xFF ∧ s.pc = 256 ∧ s.run = .running ∧ (tNext (step s)).fault = recordOf 3 0 256 256 := by decide
/-- V7, V8. -/
theorem test_prn : (tNext (step (tState 0 [0x47, 0x07]))).out = [244] ∧
    (tNext (step (tState 0 [0x47, 0x08]))).fault = recordOf 3 1 0 8 ∧ (tNext (step (tState 0 [0x47, 0x08]))).out = [] := by decide
/-- The ALU table, rows 200 and 100; A1; A3. -/
theorem test_add :
    (tNext (step (((tState 0 [0xA0, 0x00, 0x01]).setX 0 200).setX 1 100))).x 0 = 44 ∧
    (tNext (step ((tState 0 [0xA0, 0x00, 0x00]).setX 0 200))).x 0 = 144 ∧
    (tNext (step ((tState 0 [0xA0, 0x07, 0x00]).setX 0 0x10))).sp = 0x04 := by decide
/-- E9, E10: operand1 is checked first. -/
theorem test_add_register_faults :
    (tNext (step (tState 0 [0xA0, 0x09, 0x0A]))).fault = recordOf 3 1 0 9 ∧
    (tNext (step (tState 0 [0xA0, 0x00, 0x09]))).fault = recordOf 3 1 0 9 := by decide
/-- The ALU table, rows 255 and 255, 20 and 13; A2. -/
theorem test_mlt :
    (tNext (step (((tState 0 [0xA2, 0x00, 0x01]).setX 0 255).setX 1 255))).x 0 = 1 ∧
    (tNext (step (((tState 0 [0xA2, 0x00, 0x01]).setX 0 20).setX 1 13))).x 0 = 4 ∧
    (tNext (step ((tState 0 [0xA2, 0x00, 0x00]).setX 0 44))).x 0 = 144 := by decide
/-- S1, S3. -/
theorem test_psh :
    (tNext (step ((tState 3 [0x45, 0x00]).setX 0 9))).sp = 0xF3 ∧
    (tNext (step ((tState 3 [0x45, 0x00]).setX 0 9))).memRead 0xF3 = 9 ∧
    (tNext (step (((tState 0 [0x45, 0x00]).setX 0 0xAB).setSp 0))).memRead 0xFF = 0xAB := by decide
/-- S6, S10: PSH r7, and a push over the instruction's own operand byte. -/
theorem test_psh_corners :
    (tNext (step (tState 0 [0x45, 0x07]))).memRead 0xF3 = 0xF3 ∧
    (tNext (step (((tState 0 [0x45, 0x00]).setX 0 0x33).setSp 2))).memRead 1 = 0x33 ∧
    (tNext (step (((tState 0 [0x45, 0x00]).setX 0 0x33).setSp 2))).pc = 2 := by decide
/-- S2, S4. -/
theorem test_pop :
    (tNext (step (((tState 0 [0x46, 0x01]).setSp 0xF3).memWrite 0xF3 9))).x 1 = 9 ∧
    (tNext (step (((tState 0 [0x46, 0x01]).setSp 0xF3).memWrite 0xF3 9))).memRead 0xF3 = 0 ∧
    (tNext (step (((tState 0 [0x46, 0x00]).setSp 0xFF).memWrite 0xFF 0x5A))).sp = 0 := by decide
/-- S7: POP r7 zeroes the cell the popped value addresses. -/
theorem test_pop_sp :
    let s := tNext (step ((((tState 0 [0x46, 0x07]).setSp 0xF3).memWrite 0xF3 0x10).memWrite 0x10 0x77))
    s.sp = 0x11 ∧ s.memRead 0x10 = 0 ∧ s.memRead 0xF3 = 0x10 := by decide
/-- C1, C3. -/
theorem test_cll :
    (tNext (step ((tState 3 [0x50, 0x01]).setX 1 8))).memRead 0xF3 = 3 ∧
    (tNext (step ((tState 3 [0x50, 0x01]).setX 1 8))).pc = 8 ∧
    (tNext (step (tState 0x20 [0x50, 0x07]))).pc = 0xF3 := by decide
/-- C2, C5. -/
theorem test_ret :
    (tNext (step (((tState 11 [0x11]).setSp 0xF3).memWrite 0xF3 3))).pc = 5 ∧
    (tNext (step (((tState 11 [0x11]).setSp 0xF3).memWrite 0xF3 3))).memRead 0xF3 = 0 ∧
    (tNext (step (((tState 0 [0x11]).setSp 0xF3).memWrite 0xF3 0xFE))).pc = 256 := by decide
/-- E1, E2, E3. -/
theorem test_invalid_opcode :
    (tNext (step (tState 0 []))).fault = recordOf 1 0 0 0 ∧ (tNext (step (tState 0 [0xFF]))).fault = recordOf 1 0 0 0xFF ∧
    (tNext (step (tState 0 [0xA1]))).fault = recordOf 1 0 0 0xA1 := by decide
/-- E6, E7, E8. -/
theorem test_operand_past_end :
    (tNext (step (tState 255 [0x47]))).fault = recordOf 3 0 255 256 ∧
    (tNext (step (tState 254 [0x82, 0x00]))).fault = recordOf 3 0 254 256 ∧
    (tNext (step (tState 254 [0xA0, 0x09]))).fault = recordOf 3 0 254 256 := by decide
/-- E12: no step in HALTED. -/
theorem test_halted_frozen : step ((tState 0 [0x82, 0x00, 0x08]).setRun .halted) = .next ((tState 0 [0x82, 0x00, 0x08]).setRun .halted) := rfl
/-- L1.9: the ALU on its own with another tag. -/
theorem test_alu_other_tag (n : Nat) : alu (.other n) 0 1 State.reset = .error .invalidAluOperation := rfl
/-- R68 and P4's text. -/
theorem test_asm :
    asmInstr [' ', 'L', 'D', 'I', ' ', 'r', '1', ' ', ',', ' ', '0', 'x', '2', 'A'] = some (.ldi 1 42) ∧
    asmInstr ['P', 'S', 'H', ' ', 'S', 'P'] = some (.psh 7) ∧ asmInstr ['R', 'E', 'T'] = some .ret ∧
    asmInstr ['L', 'D', 'I', ' ', 'r', '8', ',', '1'] = none ∧ asmInstr ['L', 'D', 'I', ' ', 'r', '0', ',', '2', '5', '6'] = none := by
  decide
/-- P7a: an empty image launches, and its first step faults. -/
theorem test_launch_empty : (tNext (step (tNext (launch [])))).fault = recordOf 1 0 0 0 := by decide

/-! ### Witnesses: each statement's hypotheses are met, clause by clause -/

theorem witness_HostActionsAllowed :
    State.reset.held = true ∧ State.reset.mem.wf ∧ (tState 0 []).held = false ∧
    ((tState 0 []).setRun .halted).run = .halted ∧ ((tState 0 []).setRun .faulted).run = .faulted ∧
    (tState 0 []).run = .running := by decide
theorem witness_OnlyResetLeavesTerminal :
    Inv ((tState 0 [0x01]).setRun .halted) ∧ ((tState 0 [0x01]).setRun .halted).ended = true ∧
    hostAct .reset ((tState 0 [0x01]).setRun .halted) = .next State.reset :=
  ⟨⟨by decide, by decide, by decide, by decide, .inl rfl, fun h => by cases h⟩, rfl, rfl⟩
theorem witness_LaunchStateHoldsImage :
    ([0x01] : List Byte).length ≤ 256 ∧ (List.replicate 256 (1 : Byte)).length ≤ 256 ∧
    256 < (List.replicate 257 (1 : Byte)).length :=
  ⟨by decide, Nat.le_of_eq List.length_replicate, by rw [List.length_replicate]; decide⟩
theorem witness_InvKeptByStep :
    Inv (tState 0 [0x01]) ∧ step (tState 0 [0x01]) = .next ((tState 0 [0x01]).setRun .halted) :=
  ⟨⟨by decide, by decide, by decide, by decide, .inl rfl, fun h => by cases h⟩, rfl⟩
theorem witness_InvKeptByHost : Inv State.reset ∧ hostAct .start State.reset = .next State.reset.release :=
  ⟨⟨by decide, by decide, by decide, by decide, .inl rfl, fun _ => ⟨_, rfl⟩⟩, rfl⟩
theorem witness_StepRunsDecodedInstruction :
    (tState 0 [0x82, 0x00, 0x08]).enabled = true ∧ (tState 0 [0x82, 0x00, 0x08]).DecodesTo (.ldi 0 8) ∧
    (tState 255 [0x01]).enabled = true ∧ (tState 255 [0x01]).DecodesTo .hlt :=
  ⟨rfl, ⟨_, rfl⟩, rfl, ⟨_, rfl⟩⟩
theorem witness_NotEnabledFrozen :
    ((tState 0 []).setRun .halted).run = .halted ∧ ((tState 0 []).setRun .faulted).run = .faulted ∧
    State.reset.held = true := ⟨rfl, rfl, rfl⟩
theorem witness_StepAlwaysAnswers : (tState 0 []).enabled = true := rfl
theorem witness_HltAloneHaltsInPlace :
    ((tState 255 [0x01]).enabled = true ∧ (tState 255 [0x01]).pc.toNat ≤ 255 ∧ (tState 255 [0x01]).byteAfterPc 0 = 0x01) ∧
    ((tState 256 []).enabled = true ∧ 255 < (tState 256 []).pc.toNat) ∧
    (tNext (step (tState 255 [0x01]))).run = .halted := by decide
theorem witness_PcUpdateInFull :
    (tState 253 []).pc.toNat ≤ 255 ∧ (tState 255 []).pc.toNat ≤ 255 ∧ (tState 253 []).enabled = true ∧
    255 < ((tState 253 []).pcUpdate .ldi).pc.toNat := by decide
theorem witness_WritersOfState :
    exec (.ldi 1 2) State.reset = .next ((State.reset.setX 1 2).pcUpdate .ldi) ∧
    exec (.prn 9) State.reset = .next (State.reset.raise (.outOfBounds .register 9)) := ⟨rfl, rfl⟩
theorem witness_LdiLoadsImmediate :
    ((7 : Byte).toNat < 8 ∧ (tState 253 []).pc.toNat ≤ 255) ∧ 8 ≤ (8 : Byte).toNat ∧
    ((tState 254 [0x82]).enabled = true ∧ (tState 254 [0x82]).byteAfterPc 0 = 0x82 ∧ (tState 254 [0x82]).pc.toNat = 254) ∧
    ((tState 255 [0x82]).enabled = true ∧ (tState 255 [0x82]).byteAfterPc 0 = 0x82 ∧ (tState 255 [0x82]).pc.toNat = 255) := by
  decide
theorem witness_PrnEmitsRegister :
    ((7 : Byte).toNat < 8 ∧ (tState 254 []).pc.toNat ≤ 255) ∧ 8 ≤ (8 : Byte).toNat ∧
    ((tState 255 [0x47]).enabled = true ∧ (tState 255 [0x47]).byteAfterPc 0 = 0x47 ∧ (tState 255 [0x47]).pc.toNat = 255) := by
  decide
theorem witness_OutputGrowsByPrnAlone :
    (tNext (step (tState 0 [0x47, 0x07]))).out ≠ (tState 0 [0x47, 0x07]).out ∧
    step (tState 0 [0x47, 0x07]) = .next (tNext (step (tState 0 [0x47, 0x07]))) := ⟨by decide, rfl⟩
theorem witness_OutputNeverReadBack :
    step (tState 0 [0x47, 0x07]) = .next (tNext (step (tState 0 [0x47, 0x07]))) := rfl
theorem witness_AddWrapsModulo256 :
    ((7 : Byte).toNat < 8 ∧ (0 : Byte).toNat < 8 ∧ (tState 253 []).pc.toNat ≤ 255) ∧ 8 ≤ (8 : Byte).toNat ∧
    ((7 : Byte).toNat < 8 ∧ 8 ≤ (255 : Byte).toNat) ∧
    ((tState 254 [0xA0, 9]).enabled = true ∧ (tState 254 [0xA0, 9]).byteAfterPc 0 = 0xA0 ∧ (tState 254 [0xA0, 9]).pc.toNat = 254) ∧
    ((tState 255 [0xA0]).enabled = true ∧ (tState 255 [0xA0]).byteAfterPc 0 = 0xA0 ∧ (tState 255 [0xA0]).pc.toNat = 255) := by
  decide
theorem witness_MltKeepsLowByte :
    ((7 : Byte).toNat < 8 ∧ (0 : Byte).toNat < 8 ∧ (tState 253 []).pc.toNat ≤ 255) ∧ 8 ≤ (8 : Byte).toNat ∧
    ((7 : Byte).toNat < 8 ∧ 8 ≤ (255 : Byte).toNat) ∧
    ((tState 254 [0xA2, 9]).enabled = true ∧ (tState 254 [0xA2, 9]).byteAfterPc 0 = 0xA2 ∧ (tState 254 [0xA2, 9]).pc.toNat = 254) ∧
    ((tState 255 [0xA2]).enabled = true ∧ (tState 255 [0xA2]).byteAfterPc 0 = 0xA2 ∧ (tState 255 [0xA2]).pc.toNat = 255) := by
  decide
theorem witness_PushWritesBelowSp : (tState 0 [0x45, 0x00]).mem.wf ∧ ((tState 0 []).setSp 0).mem.wf := by decide
theorem witness_PopReadsZeroesRaises : (tState 0 [0x46, 0x00]).mem.wf ∧ ((tState 0 []).setSp 255).mem.wf := by decide
theorem witness_PshStoresBelowSp :
    ((0 : Byte).toNat < 8 ∧ (7 : Byte).toNat < 8 ∧ (tState 254 [0x45, 7]).mem.wf ∧ (tState 254 [0x45, 7]).pc.toNat ≤ 255) ∧
    8 ≤ (8 : Byte).toNat ∧
    ((tState 255 [0x45]).enabled = true ∧ (tState 255 [0x45]).byteAfterPc 0 = 0x45 ∧ (tState 255 [0x45]).pc.toNat = 255) := by
  decide
theorem witness_PopLoadsAndZeroes :
    ((6 : Byte).toNat < 7 ∧ (tState 254 [0x46, 6]).mem.wf ∧ (tState 254 [0x46, 6]).pc.toNat ≤ 255) ∧
    ((7 : Byte).toNat = 7 ∧ (tState 254 [0x46, 7]).mem.wf ∧ (tState 254 [0x46, 7]).pc.toNat ≤ 255) ∧ 8 ≤ (8 : Byte).toNat ∧
    ((tState 255 [0x46]).enabled = true ∧ (tState 255 [0x46]).byteAfterPc 0 = 0x46 ∧ (tState 255 [0x46]).pc.toNat = 255) := by
  decide
theorem witness_PshThenPopMovesValue :
    (0 : Byte).toNat < 7 ∧ (6 : Byte).toNat < 7 ∧ (tState 0 [0x45, 0]).mem.wf ∧
    exec (.psh 0) (tState 0 [0x45, 0]) = .next (tNext (exec (.psh 0) (tState 0 [0x45, 0]))) ∧
    exec (.pop 6) (tNext (exec (.psh 0) (tState 0 [0x45, 0]))) =
      .next (tNext (exec (.pop 6) (tNext (exec (.psh 0) (tState 0 [0x45, 0]))))) :=
  ⟨by decide, by decide, by decide, rfl, rfl⟩
theorem witness_StackIsLifo :
    (tState 0 []).mem.wf ∧ ([1, 2, 3] : List Byte).length ≤ 256 ∧ (List.replicate 256 (1 : Byte)).length ≤ 256 :=
  ⟨by decide, by decide, Nat.le_of_eq List.length_replicate⟩
theorem witness_CllPushesOwnAddress :
    ((1 : Byte).toNat < 8 ∧ (7 : Byte).toNat < 8 ∧ (tState 254 [0x50, 1]).mem.wf ∧ (tState 254 [0x50, 1]).pc.toNat ≤ 254) ∧
    8 ≤ (8 : Byte).toNat ∧
    ((tState 255 [0x50]).enabled = true ∧ (tState 255 [0x50]).byteAfterPc 0 = 0x50 ∧ (tState 255 [0x50]).pc.toNat = 255) := by
  decide
/-- A RET whose popped byte is 254. -/
def tRet254 : State := ((tState 0 [0x11]).setSp 0xF3).memWrite 0xF3 0xFE
theorem witness_RetResumesTwoPast :
    tRet254.mem.wf ∧ (exec .ret tRet254 = .next (tNext (exec .ret tRet254)) ∧ tRet254.enabled = true ∧
      254 ≤ (tRet254.memRead tRet254.sp).toNat) ∧ ((tState 256 []).enabled = true ∧ 255 < (tState 256 []).pc.toNat) :=
  ⟨by decide, ⟨rfl, by decide, by decide⟩, by decide⟩
/-- A CLL r1 at 3 whose callee at 8 is a RET. -/
def tCall : State := (((tState 3 [0x50, 0x01]).setX 1 8).memWrite 8 0x11)
theorem witness_CallThenReturnResumes :
    tCall.mem.wf ∧ tCall.enabled = true ∧ (1 : Byte).toNat < 8 ∧ tCall.DecodesTo (.cll 1) ∧
    step tCall = .next (tNext (step tCall)) ∧ (tNext (step tCall)).byteAfterPc 0 = 0x11 :=
  ⟨by decide, rfl, by decide, ⟨_, rfl⟩, rfl, by decide⟩
theorem witness_ReadReturnsLatestWrite : State.reset.mem.wf ∧ (tState 0 [1, 2]).mem.wf := by decide
theorem witness_MemoryIsItsCells :
    (tState 0 [1, 2]).mem.wf ∧ ((tState 0 [1, 3]).memWrite 1 2).mem.wf ∧
    ∀ a, (tState 0 [1, 2]).mem.read a = ((tState 0 [1, 3]).memWrite 1 2).mem.read a := by
  have h : (tState 0 [1, 2]).mem = ((tState 0 [1, 3]).memWrite 1 2).mem := by decide
  exact ⟨by decide, by decide, fun a => by rw [h]⟩
/-- A POP r0 at 0 whose stack cell is the opcode after it. -/
def tPopNext : State := (tState 0 [0x46, 0x00, 0x01]).setSp 2
theorem witness_ZeroedNextOpcodeFaults :
    tPopNext.mem.wf ∧ tPopNext.enabled = true ∧ (0 : Byte).toNat < 7 ∧ tPopNext.DecodesTo (.pop 0) ∧
    tPopNext.sp.toNat = tPopNext.pc.toNat + 2 := ⟨by decide, rfl, by decide, ⟨_, rfl⟩, by decide⟩
/-- S10's start: a PSH r0 whose stack cell is its own operand byte. -/
def tSelf : State := ((tState 0 [0x45, 0x00]).setX 0 0x33).setSp 2
theorem witness_SelfOverwritingPshCompletes :
    (0 : Byte).toNat < 8 ∧ tSelf.mem.wf ∧ tSelf.enabled = true ∧ tSelf.DecodesTo (.psh 0) ∧
    tSelf.decSp.sp.toNat = tSelf.pc.toNat + 1 := ⟨by decide, by decide, rfl, ⟨_, rfl⟩, by decide⟩
theorem witness_IllegalOpcodeFaults :
    (tState 255 [0xA3]).enabled = true ∧ (tState 255 [0xA3]).pc.toNat ≤ 255 ∧ IllegalByte ((tState 255 [0xA3]).byteAfterPc 0) := by
  refine ⟨rfl, by decide, .inr (.inr (.inr (.inr (.inr (.inr (.inr ?_))))))⟩
  decide
theorem witness_RegisterOperandCheck :
    (Instr.add 7 8).regOperands.find? (fun b => decide (8 ≤ b.toNat)) = some 8 ∧ (Instr.add 7 0).WellFormed := by decide
theorem witness_FaultsArePrecise :
    (tState 0 [0x82, 0x08]).enabled = true ∧ step (tState 0 [0x82, 0x08]) = .next (tNext (step (tState 0 [0x82, 0x08]))) ∧
    (tNext (step (tState 0 [0x82, 0x08]))).run = .faulted := ⟨rfl, rfl, by decide⟩
theorem witness_FaultPriority_fetch :
    ((tState 256 []).enabled = true ∧ 255 < (tState 256 []).pc.toNat) ∧
    (tState 255 [0xA3]).byteAfterPc 0 ∉ ([0x01, 0x82, 0x47, 0xA0, 0xA2, 0x45, 0x46, 0x50, 0x11] : List Byte) ∧
    ((tState 255 [0x50]).byteAfterPc 0 = 0x50 ∧ 255 < (tState 255 [0x50]).pc.toNat + 1) ∧
    ((tState 254 [0xA2]).byteAfterPc 0 = 0xA2 ∧ ¬ 255 < (tState 254 [0xA2]).pc.toNat + 1 ∧
      255 < (tState 254 [0xA2]).pc.toNat + 2) := by decide
theorem witness_FaultPriority_registers :
    7 < ((tState 253 [0xA0, 9, 10]).byteAfterPc 1).toNat ∧ ¬ 255 < (tState 253 [0xA0, 9, 10]).pc.toNat + 2 ∧
    ¬ 7 < ((tState 253 [0xA0, 7, 8]).byteAfterPc 1).toNat ∧ 7 < ((tState 253 [0xA0, 7, 8]).byteAfterPc 2).toNat ∧
    ¬ 7 < ((tState 253 [0xA0, 7, 7]).byteAfterPc 2).toNat := by decide
theorem witness_FaultRecordNeverRead :
    (tState 0 [0x01]).enabled = true ∧ step (tState 0 [0x01]) = .next (tNext (step (tState 0 [0x01]))) := ⟨rfl, rfl⟩

end Sys2Proof.Tests
end

section
/-!
PROOFS. The effect of an instruction whose register operands have passed the check, and `exec` in terms of it: every later
proof about an instruction goes through `exec_of_wellFormed`, `exec_of_firstBad` and the effect's own lemmas.
-/

namespace Sys2Proof.Machine

/-! ### The register check, in terms of the first bad operand -/

/-- The register an operand byte names; only the low three bits can matter once the check has passed. -/
def regOf (b : Byte) : Reg := ⟨b.toNat % 8, Nat.mod_lt _ (by decide)⟩

theorem regOf_eq {b : Byte} (h : b.toNat < 8) : regOf b = ⟨b.toNat, h⟩ :=
  Fin.ext (Nat.mod_eq_of_lt h)

/-- The first operand byte that is no register index (R84). -/
def firstBad (bs : List Byte) : Option Byte := bs.find? fun b => decide (8 ≤ b.toNat)

theorem firstBad_eq_none_iff (bs : List Byte) : firstBad bs = none ↔ ∀ b ∈ bs, IsRegIndex b := by
  simp [firstBad, IsRegIndex]

theorem firstBad_cons (b : Byte) (bs : List Byte) :
    firstBad (b :: bs) = if 8 ≤ b.toNat then some b else firstBad bs := by
  by_cases h : 8 ≤ b.toNat <;> simp [firstBad, h]

theorem mem_and_bad_of_firstBad {bs : List Byte} {b : Byte} (h : firstBad bs = some b) : b ∈ bs ∧ 8 ≤ b.toNat :=
  ⟨List.mem_of_find?_eq_some h, by simpa using List.find?_some h⟩

/-- The state an OutOfBounds(REGISTER, b) leaves (R84, R144). -/
def State.raiseReg (s : State) (b : Byte) : State := s.raise (.outOfBounds .register (b.setWidth 9))

theorem withReg_regOf {reg : Byte} (s : State) (k : Reg → State) (h : IsRegIndex reg) :
    withReg reg s k = .next (k (regOf reg)) := by
  rw [withReg_ok s k h, regOf_eq h]

theorem withReg_of_firstBad {reg b : Byte} (s : State) (k : Reg → State) (h : firstBad [reg] = some b) :
    withReg reg s k = .next (s.raiseReg b) := by
  rw [firstBad_cons] at h
  split at h
  · cases h
    exact withReg_error s k ‹_›
  · cases h

theorem withRegs_regOf {regA regB : Byte} (s : State) (k : Reg → Reg → Except FaultCause State)
    (hA : IsRegIndex regA) (hB : IsRegIndex regB) : withRegs regA regB s k = s.finish (k (regOf regA) (regOf regB)) := by
  rw [withRegs_ok s k hA hB, regOf_eq hA, regOf_eq hB]

theorem withRegs_of_firstBad {regA regB b : Byte} (s : State) (k : Reg → Reg → Except FaultCause State)
    (h : firstBad [regA, regB] = some b) : withRegs regA regB s k = .next (s.raiseReg b) := by
  rw [firstBad_cons, firstBad_cons] at h
  split at h
  · cases h
    exact withRegs_errorA _ s k ‹_›
  · split at h
    · cases h
      exact withRegs_errorB s k (Nat.not_le.1 ‹_›) ‹_›
    · cases h

/-! ### exec -/

/-- The execute phase and the PC update of an instruction whose register operands are all in 0..7 (R84, R85). -/
def effect (i : Instr) (s : State) : State :=
  match i with
  | .hlt => s.setRun .halted
  | .ldi reg imm => (s.setX (regOf reg) imm).pcUpdate .ldi
  | .prn reg => (s.emit (s.x (regOf reg))).pcUpdate .prn
  | .add regA regB => (s.setX (regOf regA) (aluSum (s.x (regOf regA)) (s.x (regOf regB)))).pcUpdate .add
  | .mlt regA regB => (s.setX (regOf regA) (aluProduct (s.x (regOf regA)) (s.x (regOf regB)))).pcUpdate .mlt
  | .psh reg => (s.push (s.decSp.x (regOf reg))).pcUpdate .psh
  | .pop reg => (s.setX (regOf reg) s.popRead).popClean.pcUpdate .pop
  | .cll reg => (s.push (byteOfPc s.pc)).setPc (pcOfByte ((s.push (byteOfPc s.pc)).x (regOf reg)))
  | .ret => (s.setPc (pcOfByte s.popRead + Config.retAdjust)).popClean

/-- With every register operand in 0..7, exec answers the instruction's effect (R84). -/
theorem exec_of_wellFormed {i : Instr} (s : State) (h : i.WellFormed) : exec i s = .next (effect i s) := by
  cases i with
  | hlt | ret => rfl
  | ldi reg | prn reg | psh reg | pop reg | cll reg => exact withReg_regOf s _ (h reg (.head _))
  | add regA regB | mlt regA regB => exact withRegs_regOf s _ (h regA (.head _)) (h regB (.tail _ (.head _)))

/-- With a register operand above 7, exec faults with the first such byte and does nothing else (R84). -/
theorem exec_of_firstBad {i : Instr} {b : Byte} (s : State) (h : firstBad i.regOperands = some b) :
    exec i s = .next (s.raiseReg b) := by
  cases i with
  | hlt | ret => cases h
  | ldi | prn | psh | pop | cll => exact withReg_of_firstBad s _ h
  | add | mlt => exact withRegs_of_firstBad s _ h

/-- What exec can do: the effect of a well-formed instruction, or the fault of a register operand above 7. -/
theorem exec_cases {i : Instr} {s t : State} (h : exec i s = .next t) :
    (i.WellFormed ∧ t = effect i s) ∨ (∃ b ∈ i.regOperands, 8 ≤ b.toNat ∧ t = s.raiseReg b) := by
  cases hb : firstBad i.regOperands with
  | none =>
    have hw : i.WellFormed := (firstBad_eq_none_iff _).1 hb
    rw [exec_of_wellFormed s hw] at h
    cases h
    exact .inl ⟨hw, rfl⟩
  | some b =>
    obtain ⟨hmem, hbad⟩ := mem_and_bad_of_firstBad hb
    rw [exec_of_firstBad s hb] at h
    cases h
    exact .inr ⟨b, hmem, hbad, rfl⟩

/-! ### What an effect does to each piece of the state -/

@[simp] theorem effect_fault (i : Instr) (s : State) : (effect i s).fault = s.fault := by cases i <;> rfl
@[simp] theorem effect_held (i : Instr) (s : State) : (effect i s).held = s.held := by cases i <;> rfl

theorem effect_hlt_run (s : State) : (effect .hlt s).run = .halted := rfl

/-- Only HLT changes the run state (R86). -/
theorem effect_run_of_ne_hlt {i : Instr} (s : State) (h : i ≠ .hlt) : (effect i s).run = s.run := by
  cases i with
  | hlt => exact absurd rfl h
  | ldi | prn | add | mlt | psh | pop | cll | ret => rfl

/-- An effect leaves a state that was not FAULTED not FAULTED. -/
theorem effect_run_ne_faulted (i : Instr) {s : State} (h : s.run ≠ .faulted) : (effect i s).run ≠ .faulted := by
  by_cases hi : i = .hlt
  · subst hi
    simp [effect_hlt_run]
  · rwa [effect_run_of_ne_hlt s hi]

/-- Only PRN writes the output, and it appends its register (R101). -/
theorem effect_out_cases (i : Instr) (s : State) :
    (effect i s).out = s.out ∨ ∃ reg, i = .prn reg ∧ (effect i s).out = s.out ++ [s.x (regOf reg)] := by
  cases i with
  | prn reg => exact .inr ⟨reg, rfl, rfl⟩
  | hlt | ldi | add | mlt | psh | pop | cll | ret => exact .inl rfl

/-- The instructions that write a memory cell (R34). -/
def WritesMem (i : Instr) : Prop := (∃ b, i = .psh b) ∨ (∃ b, i = .pop b) ∨ (∃ b, i = .cll b) ∨ i = .ret

/-- An effect leaves the memory, or is that of a storing instruction and writes one cell (R34). -/
theorem effect_mem_cases (i : Instr) (s : State) :
    (effect i s).mem = s.mem ∨ (WritesMem i ∧ ∃ a v, (effect i s).mem = s.mem.write a v) := by
  cases i with
  | hlt | ldi | prn | add | mlt => exact .inl rfl
  | psh b => exact .inr ⟨.inl ⟨b, rfl⟩, _, _, rfl⟩
  | pop b => exact .inr ⟨.inr (.inl ⟨b, rfl⟩), _, _, rfl⟩
  | cll b => exact .inr ⟨.inr (.inr (.inl ⟨b, rfl⟩)), _, _, rfl⟩
  | ret => exact .inr ⟨.inr (.inr (.inr rfl)), _, _, rfl⟩

/-- An effect keeps the memory's canonical form. -/
theorem effect_mem_wf (i : Instr) {s : State} (h : s.mem.wf) : (effect i s).mem.wf := by
  obtain hm | ⟨-, a, v, hm⟩ := effect_mem_cases i s <;> rw [hm]
  · exact h
  · exact Memory.wf_write a v h

/-- The pc after an effect: kept by HLT, advanced by the length, a byte after CLL, a byte plus 2 after RET (R85). -/
theorem effect_pc_cases (i : Instr) (s : State) :
    (i = .hlt ∧ (effect i s).pc = s.pc) ∨ (effect i s).pc = s.pc + BitVec.ofNat 9 (opcodeLength i.opcode) ∨
    (∃ b, (effect i s).pc = pcOfByte b) ∨ (∃ b, (effect i s).pc = pcOfByte b + 2) := by
  cases i with
  | hlt => exact .inl ⟨rfl, rfl⟩
  | ldi | prn | add | mlt | psh | pop => exact .inr (.inl rfl)
  | cll => exact .inr (.inr (.inl ⟨_, rfl⟩))
  | ret => exact .inr (.inr (.inr ⟨_, rfl⟩))

/-- An instruction fetched whole below address 256 leaves the pc in 0..258 (R24). -/
theorem effect_pc_le (i : Instr) {s : State} (h : s.pc.toNat + opcodeLength i.opcode ≤ 256) :
    (effect i s).pc.toNat ≤ 258 := by
  obtain ⟨-, hp⟩ | hp | ⟨b, hp⟩ | ⟨b, hp⟩ := effect_pc_cases i s <;> rw [hp]
  · omega
  · simp only [BitVec.toNat_add, BitVec.toNat_ofNat]
    omega
  · simp only [pcOfByte, BitVec.toNat_setWidth]
    omega
  · have htwo : (2 : PcWord).toNat = 2 := rfl
    simp only [pcOfByte, BitVec.toNat_add, BitVec.toNat_setWidth, htwo]
    omega

/-- The instructions that name a register to write, with the operand that names it (R34). -/
def WritesReg (i : Instr) (b : Byte) : Prop :=
  (∃ v, i = .ldi b v) ∨ (∃ c, i = .add b c) ∨ (∃ c, i = .mlt b c) ∨ i = .pop b

theorem State.x_setX_eq_or (s : State) (r q : Reg) (v : Byte) : (s.setX r v).x q = s.x q ∨ q = r :=
  or_iff_not_imp_right.2 (s.x_setX_ne v)

theorem State.x_push_eq_or (s : State) (r : Reg) (v : Byte) : (s.push v).x r = s.x r ∨ r = spReg :=
  or_iff_not_imp_right.2 (s.x_push_ne v)

theorem State.x_popClean_eq_or (s : State) (r : Reg) : s.popClean.x r = s.x r ∨ r = spReg :=
  or_iff_not_imp_right.2 s.x_popClean_ne

/-- A register an effect changes is the one its instruction names to write, or SP of a stack instruction (R34). -/
theorem effect_x_cases (i : Instr) (s : State) (r : Reg) :
    (effect i s).x r = s.x r ∨ (∃ b, WritesReg i b ∧ r = regOf b) ∨ (r = spReg ∧ WritesMem i) := by
  cases i with
  | hlt | prn => exact .inl rfl
  | ldi b v => exact (s.x_setX_eq_or (regOf b) r _).imp_right fun hr => .inl ⟨b, .inl ⟨v, rfl⟩, hr⟩
  | add b c => exact (s.x_setX_eq_or (regOf b) r _).imp_right fun hr => .inl ⟨b, .inr (.inl ⟨c, rfl⟩), hr⟩
  | mlt b c => exact (s.x_setX_eq_or (regOf b) r _).imp_right fun hr => .inl ⟨b, .inr (.inr (.inl ⟨c, rfl⟩)), hr⟩
  | psh b => exact (s.x_push_eq_or r (s.decSp.x (regOf b))).imp_right fun hr => .inr ⟨hr, .inl ⟨b, rfl⟩⟩
  | cll b => exact (s.x_push_eq_or r (byteOfPc s.pc)).imp_right fun hr => .inr ⟨hr, .inr (.inr (.inl ⟨b, rfl⟩))⟩
  | ret => exact (s.x_popClean_eq_or r).imp_right fun hr => .inr ⟨hr, .inr (.inr (.inr rfl))⟩
  | pop b =>
    obtain hclean | hsp := (s.setX (regOf b) s.popRead).x_popClean_eq_or r
    · obtain hset | hb := s.x_setX_eq_or (regOf b) r s.popRead
      · exact .inl (hclean.trans hset)
      · exact .inr (.inl ⟨b, .inr (.inr (.inr rfl)), hb⟩)
    · exact .inr (.inr ⟨hsp, .inr (.inl ⟨b, rfl⟩)⟩)

end Sys2Proof.Machine
end

section
/-!
PROOFS. What a fetch answers, as later proofs use it, and what a whole step can do.
-/

namespace Sys2Proof.Machine

/-- A fetched instruction lies whole below address 256. -/
theorem State.pc_add_length_le_of_fetch {s : State} {i : Instr} (h : s.fetch = .ok i) :
    s.pc.toNat + opcodeLength i.opcode ≤ 256 := by
  obtain ⟨-, hf⟩ | ⟨-, -, hf⟩ | ⟨-, _, -, -, hf⟩ | ⟨-, j, -, hle, -, hf⟩ := s.fetch_cases <;> rw [h] at hf <;> cases hf
  unfold opcodeLength
  omega

/-- The opcode byte at the pc stands before the bytes after it. -/
theorem State.bytesAtPc_eq_cons {s : State} (h : s.pc.toNat < 256) :
    s.bytesAtPc = s.memRead (BitVec.ofNat 8 s.pc.toNat) ::
      (List.range (255 - s.pc.toNat)).map fun k => s.memRead (BitVec.ofNat 8 (s.pc.toNat + 1 + k)) := by
  have hlen : Config.memSize - s.pc.toNat = (255 - s.pc.toNat) + 1 := by
    show 256 - _ = _
    omega
  simp [State.bytesAtPc, hlen, List.range_succ_eq_map, Function.comp_def, Nat.add_assoc, Nat.add_comm 1]

/-- The instruction a fetch answers is the one the bytes at the pc decode to (R82). -/
theorem State.decodesTo_of_fetch {s : State} {i : Instr} (h : s.fetch = .ok i) : s.DecodesTo i := by
  obtain ⟨-, hf⟩ | ⟨-, -, hf⟩ | ⟨-, _, -, -, hf⟩ | ⟨hpc, j, hop, hle, hops, hf⟩ := s.fetch_cases <;>
    rw [h] at hf <;> cases hf
  have hi := (withOperands_eq_some_iff i.opcode i.operands i).2 ⟨rfl, rfl⟩
  have hmin : min (nops i.opcode) (255 - s.pc.toNat) = nops i.opcode := by omega
  unfold State.DecodesTo
  rw [State.bytesAtPc_eq_cons hpc]
  simp only [decode, hop, ← List.map_take, List.take_range, hmin, ← hops, hi]
  exact ⟨_, rfl⟩

/-- Fetch reads the pc and the memory alone. -/
theorem State.fetch_congr {s t : State} (hpc : t.pc = s.pc) (hmem : t.mem = s.mem) : t.fetch = s.fetch := by
  have hread (a : Nat) : t.memReadAt a = s.memReadAt a := by
    simp only [State.memReadAt, State.memRead_congr hmem]
  have hops (n a : Nat) : t.fetchOperands n a = s.fetchOperands n a := by
    induction n generalizing a with
    | zero => rfl
    | succ n ih => simp only [State.fetchOperands, hread, ih]
  simp only [State.fetch, hread, hops, hpc]

theorem State.enabled_iff (s : State) : s.enabled = true ↔ s.run = .running ∧ s.held = false := by
  simp [State.enabled]

/-- A step that is not enabled leaves the state frozen (R87). -/
theorem step_of_not_enabled {s : State} (h : s.enabled = false) : step s = .next s := by
  simp [step, h]

/-- The faults a program can cause at a state, with what each says of the pc (R141, R143, R145). -/
inductive Raisable (s : State) : FaultCause → Prop where
  | opcodeAddress (h : 256 ≤ s.pc.toNat) : Raisable s (.outOfBounds .memory s.pc)
  | illegalOpcode {b : Byte} (h : s.pc.toNat ≤ 255) (hb : opcodeOf b = none) : Raisable s (.invalidOpcode b)
  | operandAddress (h : 254 ≤ s.pc.toNat) (h' : s.pc.toNat ≤ 255) : Raisable s (.outOfBounds .memory 256)
  | register {b : Byte} (h : s.pc.toNat ≤ 254) (hb : 8 ≤ b.toNat) :
      Raisable s (.outOfBounds .register (b.setWidth 9))

theorem nops_le_two (op : Opcode) : nops op ≤ 2 := by cases op <;> decide

/-- An instruction with a register operand has an operand byte. -/
theorem nops_pos_of_mem_regOperands {i : Instr} {b : Byte} (h : b ∈ i.regOperands) : 1 ≤ nops i.opcode := by
  cases i with
  | hlt | ret => cases h
  | ldi | add | mlt => exact Nat.le_succ 1
  | prn | psh | pop | cll => exact Nat.le_refl 1

theorem raisable_of_fetch_error {s : State} {e : FaultCause} (h : s.fetch = .error e) : Raisable s e := by
  obtain ⟨hpc, hf⟩ | ⟨hpc, hop, hf⟩ | ⟨hpc, op, -, hend, hf⟩ | ⟨-, _, -, -, -, hf⟩ := s.fetch_cases <;>
    rw [h] at hf <;> cases hf
  · exact .opcodeAddress hpc
  · exact .illegalOpcode (by omega) hop
  · have := nops_le_two op
    exact .operandAddress (by omega) (by omega)

/-- What a step can do: nothing where it is not enabled, a fault a program can cause, or the effect of the instruction
fetched. -/
theorem step_outcomes {s t : State} (h : step s = .next t) :
    (s.enabled = false ∧ t = s) ∨
    (s.enabled = true ∧ ∃ e, Raisable s e ∧ t = s.raise e) ∨
    (s.enabled = true ∧ ∃ i, s.fetch = .ok i ∧ i.WellFormed ∧ t = effect i s) := by
  obtain hidle | ⟨en, e, he, ht⟩ | ⟨en, i, hi, hx⟩ := step_cases h
  · exact .inl hidle
  · exact .inr (.inl ⟨en, e, raisable_of_fetch_error he, ht⟩)
  · obtain ⟨hw, ht⟩ | ⟨b, hmem, hbad, ht⟩ := exec_cases hx
    · exact .inr (.inr ⟨en, i, hi, hw, ht⟩)
    · have hlen := State.pc_add_length_le_of_fetch hi
      have hpos := nops_pos_of_mem_regOperands hmem
      unfold opcodeLength at hlen
      exact .inr (.inl ⟨en, _, .register (by omega) hbad, ht⟩)

/-- A change `f` of the state that neither the enable nor the fetch sees, and that every fault and every effect turns into
a change `g` of their result, turns the whole step's result by `g`. -/
theorem step_map {s t : State} (f g : State → State) (hen : (f s).enabled = s.enabled) (hfetch : (f s).fetch = s.fetch)
    (hidle : s.enabled = false → f s = g s) (hraise : ∀ e, (f s).raise e = g (s.raise e))
    (heffect : s.enabled = true → ∀ i, effect i (f s) = g (effect i s)) (h : step s = .next t) :
    step (f s) = .next (g t) := by
  obtain ⟨en, rfl⟩ | ⟨en, e, he, rfl⟩ | ⟨en, i, hi, hx⟩ := step_cases h
  · rw [step_of_not_enabled (hen.trans en), hidle en]
  · rw [step_of_fetch_error (hen.trans en) (hfetch.trans he), hraise]
  · rw [step_of_fetch_ok (hen.trans en) (hfetch.trans hi)]
    cases hb : firstBad i.regOperands with
    | none =>
      have hw : i.WellFormed := (firstBad_eq_none_iff _).1 hb
      rw [exec_of_wellFormed s hw] at hx
      cases hx
      rw [exec_of_wellFormed _ hw, heffect en]
    | some b =>
      rw [exec_of_firstBad s hb] at hx
      cases hx
      rw [exec_of_firstBad _ hb]
      exact congrArg _ (hraise _)

end Sys2Proof.Machine
end

section
/-!
PROOFS. The invariant: it holds at reset and every step keeps it (10_state.md rules R24, R25, R27).
-/

namespace Sys2Proof.Machine

/-- The record of a fault a program can cause is legal. -/
theorem Raisable.legal {s : State} {e : FaultCause} (h : Raisable s e) : (s.raise e).fault.Legal := by
  cases h with
  | opcodeAddress h => exact .inr (.inr (.inl ⟨rfl, rfl, rfl, .inl ⟨h, rfl⟩⟩))
  | @illegalOpcode b h hb =>
    refine .inr (.inl ⟨rfl, rfl, rfl, h, ?_, ?_⟩)
    · simp only [State.raise_fault, recordOf, FaultCause.info, BitVec.toNat_setWidth]
      omega
    · have hback : (b.setWidth 9).setWidth 8 = b := by simp
      exact (congrArg opcodeOf hback).trans hb
  | operandAddress h h' => exact .inr (.inr (.inl ⟨rfl, rfl, rfl, .inr ⟨h, h', rfl⟩⟩))
  | @register b h hb =>
    refine .inr (.inr (.inr ⟨rfl, rfl, rfl, h, ?_⟩))
    simp only [State.raise_fault, recordOf, FaultCause.info, BitVec.toNat_setWidth]
    omega

/-- A fault taken where a step is enabled keeps the invariant. -/
theorem Inv.raise {s : State} {e : FaultCause} (hs : Inv s) (en : s.enabled = true) (he : Raisable s e) :
    Inv (s.raise e) where
  mem_wf := hs.mem_wf
  pc_reachable := hs.pc_reachable
  recorded_iff_faulted := by simp [recordOf]
  recorded_pc _ := rfl
  record_legal := he.legal
  held_fresh hheld := by
    obtain ⟨-, hfree⟩ := s.enabled_iff.1 en
    cases hfree.symm.trans hheld

/-- The effect of an instruction fetched where a step is enabled keeps the invariant. -/
theorem Inv.effect {s : State} {i : Instr} (hs : Inv s) (en : s.enabled = true) (hi : s.fetch = .ok i) :
    Inv (effect i s) := by
  obtain ⟨hrun, hfree⟩ := s.enabled_iff.1 en
  have hnot : s.run ≠ .faulted := by simp [hrun]
  have hclear : s.fault.valid ≠ true := mt hs.recorded_iff_faulted.1 hnot
  exact {
    mem_wf := effect_mem_wf i hs.mem_wf
    pc_reachable := effect_pc_le i (State.pc_add_length_le_of_fetch hi)
    recorded_iff_faulted := by
      rw [effect_fault]
      exact iff_of_false hclear (effect_run_ne_faulted i hnot)
    recorded_pc := by
      rw [effect_fault]
      exact fun hvalid => absurd hvalid hclear
    record_legal := by
      rw [effect_fault]
      exact hs.record_legal
    held_fresh := by simp [hfree] }

/-- Settles O7, along the three outcomes of a step. -/
theorem invKeptByStep : Obligations.InvKeptByStep := by
  intro s t hs h
  obtain ⟨-, rfl⟩ | ⟨en, e, he, rfl⟩ | ⟨en, i, hi, -, rfl⟩ := step_outcomes h
  · exact hs
  · exact hs.raise en he
  · exact hs.effect en hi

/-- Settles O6: the reset state is its own witness for the hold's clause. -/
theorem invAtReset : Obligations.InvAtReset where
  mem_wf := Memory.wf_reset
  pc_reachable := Nat.zero_le _
  recorded_iff_faulted := by decide
  recorded_pc := by decide
  record_legal := .inl rfl
  held_fresh _ := ⟨_, rfl⟩

/-- Settles O1: every piece is read off the reset state. -/
theorem resetState : Obligations.ResetState :=
  ⟨by decide, rfl, rfl, fun _ => rfl, ⟨State.reset.release, rfl, rfl⟩, ⟨rfl, rfl, rfl, rfl, rfl⟩, rfl⟩

theorem State.ended_iff (s : State) : s.ended = true ↔ s.run = .halted ∨ s.run = .faulted := by
  simp [State.ended]

/-- While the core is held the run state reads RUNNING, its reset value (R152). -/
theorem Inv.run_of_held {s : State} (hs : Inv s) (h : s.held = true) : s.run = .running := by
  obtain ⟨m, rfl⟩ := hs.held_fresh h
  rfl

/-- Settles O4: an ended state is neither RUNNING nor, by the invariant, held, so no step, LOAD or START acts on it. -/
theorem onlyResetLeavesTerminal : Obligations.OnlyResetLeavesTerminal := by
  intro s hs hend
  have hrun : s.run ≠ .running := by
    rcases s.ended_iff.1 hend with h | h <;> simp [h]
  have hfree : s.held ≠ true := mt hs.run_of_held hrun
  have hidle : s.enabled = false := Bool.eq_false_iff.2 fun en => hrun (s.enabled_iff.1 en).1
  refine ⟨step_of_not_enabled hidle, fun a t ha => ?_⟩
  cases a with
  | reset => cases ha; exact .inr ⟨rfl, rfl⟩
  | load addr byte => simp [hostAct, hostLoad, hfree] at ha
  | start => simp [hostAct, hostStart, hfree] at ha
  | readOut => cases ha; exact .inl rfl
  | readState =>
    simp only [hostAct, readState, hend, if_true] at ha
    cases ha
    exact .inl rfl

end Sys2Proof.Machine
end

section
/-!
PROOFS. Who writes each piece of state, and which pieces nothing reads (10_state.md rules R27, R30, R34).
-/

namespace Sys2Proof.Machine

/-- Settles O18, from what an effect does to each piece; a register fault writes the run state and the record alone. -/
theorem writersOfState : Obligations.WritersOfState := by
  intro i s t h
  obtain ⟨hw, rfl⟩ | ⟨b, hmem, -, rfl⟩ := exec_cases h
  · refine ⟨fun r hr => ?_, fun a ha => ?_, fun ho => ?_, fun hp hi => ?_, fun hr => ?_, fun hf => ?_, effect_held i s⟩
    · obtain hx | ⟨b, hb, rfl⟩ | ⟨rfl, hsp⟩ := effect_x_cases i s r
      · exact absurd hx hr
      · have hreg : IsRegIndex b := by
          obtain ⟨v, rfl⟩ | ⟨c, rfl⟩ | ⟨c, rfl⟩ | rfl := hb <;> exact hw b (.head _)
        exact .inl ⟨b, by rw [regOf_eq hreg], hb⟩
      · exact .inr ⟨rfl, hsp⟩
    · obtain hm | ⟨hwrites, -⟩ := effect_mem_cases i s
      · exact absurd (State.memRead_congr hm a) ha
      · exact hwrites
    · obtain ho' | ⟨reg, hi, -⟩ := effect_out_cases i s
      · exact absurd ho' ho
      · exact ⟨reg, hi⟩
    · subst hi
      exact hp rfl
    · by_contra hne
      rw [not_or] at hne
      exact hr (effect_run_of_ne_hlt s hne.1)
    · exact absurd (effect_fault i s) hf
  · exact ⟨fun r hr => absurd rfl hr, fun a ha => absurd rfl ha, fun ho => absurd rfl ho, fun hp => absurd rfl hp,
      fun _ => .inr rfl, fun _ => rfl, rfl⟩

/-- Settles O42: the check's two outcomes. -/
theorem registerOperandCheck : Obligations.RegisterOperandCheck := by
  refine fun i s => ⟨fun b hb => exec_of_firstBad s hb, fun hw => ?_⟩
  refine ⟨effect i s, exec_of_wellFormed s hw, effect_fault i s, ?_⟩
  by_cases hi : i = .hlt
  · exact .inr hi
  · exact .inl (effect_run_of_ne_hlt s hi)

/-- Settles O21: of a step's outcomes only the effect of a PRN changes the output, and its operand passed the check. -/
theorem outputGrowsByPrnAlone : Obligations.OutputGrowsByPrnAlone := by
  intro s t h
  obtain ⟨-, rfl⟩ | ⟨-, e, -, rfl⟩ | ⟨en, i, hi, hw, rfl⟩ := step_outcomes h
  · exact .inl rfl
  · exact .inl rfl
  · obtain ho | ⟨reg, rfl, ho⟩ := effect_out_cases i s
    · exact .inl ho
    · have hreg : IsRegIndex reg := hw reg (.head _)
      exact .inr ⟨reg, hreg, en, State.decodesTo_of_fetch hi, by rw [ho, regOf_eq hreg]⟩

/-- The state with more earlier output. -/
def State.withEarlierOut (earlier : List Byte) (s : State) : State := { s with out := earlier ++ s.out }

/-- More earlier output passes through an effect, past what the effect appends. -/
theorem effect_withEarlierOut (i : Instr) (s : State) (earlier : List Byte) :
    effect i (s.withEarlierOut earlier) = (effect i s).withEarlierOut earlier := by
  cases i with
  | prn reg =>
    have hassoc : earlier ++ s.out ++ [s.x (regOf reg)] = earlier ++ (s.out ++ [s.x (regOf reg)]) :=
      List.append_assoc ..
    exact congrArg (fun o => { effect (.prn reg) s with out := o }) hassoc
  | hlt | ldi | add | mlt | psh | pop | cll | ret => rfl

/-- Settles O22: more earlier output is a change no part of a step sees. -/
theorem outputNeverReadBack : Obligations.OutputNeverReadBack := by
  intro s t earlier h
  exact step_map (State.withEarlierOut earlier) (State.withEarlierOut earlier) rfl (State.fetch_congr rfl rfl)
    (fun _ => rfl) (fun _ => rfl) (fun _ i => effect_withEarlierOut i s earlier) h

/-- With another fault record, an effect is the same with that record. -/
theorem effect_with_fault (i : Instr) (s : State) (f : FaultRecord) :
    effect i { s with fault := f } = { effect i s with fault := f } := by
  cases i <;> rfl

/-- Settles O45: another fault record is a change no part of a step sees, and a fault writes over it. -/
theorem faultRecordNeverRead : Obligations.FaultRecordNeverRead := by
  intro s t f en h
  have hnot : s.run ≠ .faulted := by simp [(s.enabled_iff.1 en).1]
  refine step_map (fun u => { u with fault := f }) (fun u => if u.run = .faulted then u else { u with fault := f }) rfl
    (State.fetch_congr rfl rfl) (fun hidle => ?_) (fun _ => rfl) (fun _ i => ?_) h
  · cases en.symm.trans hidle
  · rw [effect_with_fault, if_neg (effect_run_ne_faulted i hnot)]

end Sys2Proof.Machine
end

section
/-!
PROOFS. The memory is its 256 cells (10_state.md rule R29): a canonical list of cells is the sorted list of the pairs its
reads give.
-/

namespace Sys2Proof.Machine

/-- An address no cell lists reads as unlisted. -/
theorem lookupCell_of_forall_ne {l : List Host.Cell} {a : Nat} (h : ∀ c ∈ l, c.1 ≠ a) :
    lookupCell l a = Memory.unlisted := by
  induction l with
  | nil => rfl
  | cons c l ih =>
    obtain ⟨hc, hl⟩ := List.forall_mem_cons.1 h
    simp [lookupCell, hc, ih hl]

/-- In rising order, the cells listed are the reads that are not the unlisted value. -/
theorem mem_iff_lookupCell_eq {l : List Host.Cell} (hl : l.Pairwise fun c d => c.1 < d.1) {a : Nat} {v : Byte}
    (hv : v ≠ Memory.unlisted) : (a, v) ∈ l ↔ lookupCell l a = v := by
  induction l with
  | nil => simp [lookupCell, hv.symm]
  | cons c l ih =>
    obtain ⟨b, w⟩ := c
    obtain ⟨hlt, hl⟩ := List.pairwise_cons.1 hl
    by_cases hab : b = a
    · subst hab
      have hnot : (b, v) ∉ l := fun hmem => Nat.lt_irrefl b (hlt _ hmem)
      simp [lookupCell, hnot, eq_comm]
    · simp [lookupCell, hab, Ne.symm hab, ih hl]

/-- A cell of one canonical memory is a cell of every canonical memory that reads the same. -/
theorem mem_cells_of_read_eq {m n : Memory} (hm : m.wf) (hn : n.wf) (h : ∀ a, m.read a = n.read a) {c : Host.Cell}
    (hc : c ∈ m.cells) : c ∈ n.cells := by
  obtain ⟨a, v⟩ := c
  obtain ⟨ha, hv⟩ := hm.2 _ hc
  have hread := h (BitVec.ofNat 8 a)
  simp only [Memory.read, BitVec.toNat_ofNat, Nat.mod_eq_of_lt ha] at hread
  rw [mem_iff_lookupCell_eq hm.1 hv] at hc
  exact (mem_iff_lookupCell_eq hn.1 hv).2 (hread.symm.trans hc)

/-- Settles O37: the two lists have the same cells, and rising order leaves one list of them. -/
theorem memoryIsItsCells : Obligations.MemoryIsItsCells := by
  intro m n hm hn h
  have hnodup {k : Memory} (hk : k.wf) : k.cells.Nodup := hk.1.imp fun hlt he => by simp [he] at hlt
  have hperm : m.cells.Perm n.cells := (List.perm_ext_iff_of_nodup (hnodup hm) (hnodup hn)).2 fun c =>
    ⟨mem_cells_of_read_eq hm hn h, mem_cells_of_read_eq hn hm fun a => (h a).symm⟩
  have hcells : m.cells = n.cells :=
    hperm.eq_of_pairwise (fun c d _ _ hcd hdc => absurd hcd (Nat.lt_asymm hdc)) hm.1 hn.1
  cases m
  cases n
  exact congrArg Memory.mk hcells

end Sys2Proof.Machine
end

section
/-!
PROOFS. Sequences of writes to the memory, and a step at a state whose bytes decode or start with an illegal opcode
(20_memory.md rules R47, R50).
-/

namespace Sys2Proof.Machine

/-- A sequence of writes keeps the canonical form. -/
theorem Memory.wf_foldl_write {m : Memory} (writes : List (Byte × Byte)) (h : m.wf) :
    (writes.foldl (fun m w => m.write w.1 w.2) m).wf := by
  induction writes generalizing m with
  | nil => exact h
  | cons w writes ih => exact ih (Memory.wf_write w.1 w.2 h)

/-- Settles O36, by induction on the writes from the last one back: the last write is to the cell read, or leaves it. -/
theorem readReturnsLatestWrite : Obligations.ReadReturnsLatestWrite := by
  intro m writes a h
  induction writes using List.reverseRecOn with
  | nil => rfl
  | append_singleton writes w ih =>
    rw [List.foldl_concat, List.reverse_concat]
    by_cases hw : w.1 = a
    · have hlast : (w :: writes.reverse).find? (fun w => w.1 == a) = some w := List.find?_cons_of_pos (beq_iff_eq.2 hw)
      rw [hlast, ← hw]
      exact Memory.read_write_same _ _ (Memory.wf_foldl_write writes h)
    · have hskip : (w :: writes.reverse).find? (fun w => w.1 == a) = writes.reverse.find? fun w => w.1 == a :=
        List.find?_cons_of_neg (mt beq_iff_eq.1 hw)
      rw [hskip, Memory.read_write_ne _ _ (Ne.symm hw)]
      exact ih

/-- An instruction decodes from its own opcode byte with enough bytes after it for its operands (R60, R61). -/
theorem opcode_and_length_of_decode {b : Byte} {bs rest : List Byte} {i : Instr} (h : decode (b :: bs) = .ok (i, rest)) :
    opcodeOf b = some i.opcode ∧ nops i.opcode ≤ bs.length := by
  simp only [decode] at h
  split at h
  · cases h
  · rename_i op hop
    split at h
    · rename_i j hj
      cases h
      obtain ⟨rfl, hops⟩ := (withOperands_eq_some_iff op _ i).1 hj
      refine ⟨hop, ?_⟩
      rw [← operands_length, hops, List.length_take]
      exact Nat.min_le_right _ _
    · cases h

/-- The instruction the bytes at the pc decode to is the one a fetch answers (R82). -/
theorem State.fetch_of_decodesTo {s : State} {i : Instr} (h : s.DecodesTo i) : s.fetch = .ok i := by
  obtain ⟨rest, hdec⟩ := h
  obtain ⟨hpc, -⟩ | ⟨hpc, hop, -⟩ | ⟨hpc, op, hop, hend, -⟩ | ⟨-, j, -, -, -, hf⟩ := s.fetch_cases
  · have hnil : s.bytesAtPc = [] := by
      rw [State.bytesAtPc, Nat.sub_eq_zero_of_le hpc]
      rfl
    rw [hnil] at hdec
    cases hdec
  · rw [State.bytesAtPc_eq_cons hpc] at hdec
    cases hop.symm.trans (opcode_and_length_of_decode hdec).1
  · rw [State.bytesAtPc_eq_cons hpc] at hdec
    obtain ⟨hop', hlen⟩ := opcode_and_length_of_decode hdec
    cases hop.symm.trans hop'
    rw [List.length_map, List.length_range] at hlen
    omega
  · obtain ⟨rest', hdec'⟩ := State.decodesTo_of_fetch hf
    cases hdec.symm.trans hdec'
    exact hf

/-- Where a step is enabled and the bytes at the pc decode to a well-formed instruction, it has that one's effect. -/
theorem step_of_decodesTo {s : State} {i : Instr} (en : s.enabled = true) (h : s.DecodesTo i) (hw : i.WellFormed) :
    step s = .next (effect i s) :=
  (step_of_fetch_ok en (State.fetch_of_decodesTo h)).trans (exec_of_wellFormed s hw)

/-- A fetch that meets an illegal opcode byte raises InvalidOpcode with it (R141). -/
theorem State.fetch_of_illegal {s : State} (hpc : s.pc.toNat < 256) (hop : opcodeOf (s.byteAfterPc 0) = none) :
    s.fetch = .error (.invalidOpcode (s.byteAfterPc 0)) := by
  have hread : s.memReadAt s.pc.toNat = .ok (s.byteAfterPc 0) := s.memReadAt_ok hpc
  simp only [State.fetch, hread, hop]

/-- Where a step is enabled and the byte at the pc is an illegal opcode, it faults InvalidOpcode with that byte (R141). -/
theorem step_of_illegal {s : State} (en : s.enabled = true) (hpc : s.pc.toNat < 256)
    (hop : opcodeOf (s.byteAfterPc 0) = none) : step s = .next (s.faulted 1 0 ((s.byteAfterPc 0).setWidth 9)) :=
  step_of_fetch_error en (State.fetch_of_illegal hpc hop)

/-- A POP of r0..r6 zeroes the cell at the SP it began with (R123). -/
theorem memRead_effect_pop_sp {s : State} {reg : Byte} (h : s.mem.wf) (hreg : reg.toNat < 7) :
    (effect (.pop reg) s).memRead s.sp = 0 := by
  have hne : spReg ≠ regOf reg := by
    rw [regOf_eq (by omega)]
    exact Fin.ne_of_val_ne (Nat.ne_of_gt hreg)
  have hsp : (s.setX (regOf reg) s.popRead).sp = s.sp := s.x_setX_ne s.popRead hne
  calc (effect (.pop reg) s).memRead s.sp
      = (s.setX (regOf reg) s.popRead).popClean.memRead s.sp := State.memRead_pcUpdate _ .pop s.sp
    _ = 0 := by
      rw [← hsp]
      exact State.memRead_popClean_same h

/-- Settles O38: after the POP the pc is the address of the cell it zeroed, and 0 is no opcode. -/
theorem zeroedNextOpcodeFaults : Obligations.ZeroedNextOpcodeFaults := by
  intro s reg hm en hreg hdec hsp
  have hw : (Instr.pop reg).WellFormed := fun b hb => by
    cases List.mem_singleton.1 hb
    exact Nat.lt_succ_of_lt hreg
  have hlt : s.sp.toNat < 256 := s.sp.isLt
  have hpc : (effect (.pop reg) s).pc.toNat = s.pc.toNat + 2 := by
    show (s.pc + 2).toNat = _
    have htwo : (2 : PcWord).toNat = 2 := rfl
    rw [BitVec.toNat_add, htwo]
    omega
  have hbyte : (effect (.pop reg) s).byteAfterPc 0 = 0 := by
    have haddr : BitVec.ofNat 8 ((effect (.pop reg) s).pc.toNat + 0) = s.sp := by
      rw [Nat.add_zero, hpc, ← hsp, BitVec.ofNat_toNat, BitVec.setWidth_eq]
    rw [State.byteAfterPc, haddr]
    exact memRead_effect_pop_sp hm hreg
  refine ⟨effect (.pop reg) s, step_of_decodesTo en hdec hw, (s.enabled_iff.1 en).1, hpc, ?_⟩
  have hfault := step_of_illegal (s := effect (.pop reg) s) en (by omega) (by rw [hbyte]; rfl)
  rwa [hbyte] at hfault

end Sys2Proof.Machine
end

section
/-!
PROOFS. The decoder and the encoder agree, which bytes the decoder rejects, and the scenario's words and text
(30_encoding.md rules R60 to R68).
-/

namespace Sys2Proof.Machine

/-- The bytes of an encoding decode to its instruction, and what follows them comes back unread. -/
theorem decode_encode_append (i : Instr) (rest : List Byte) : decode (encode i ++ rest) = .ok (i, rest) := by
  have hop : opcodeOf (opcodeByte i.opcode) = some i.opcode := (opcodeOf_eq_some_iff _ _).2 rfl
  have htake : (i.operands ++ rest).take (nops i.opcode) = i.operands := List.take_left' (operands_length i)
  have hdrop : (i.operands ++ rest).drop (nops i.opcode) = rest := List.drop_left' (operands_length i)
  have hi : withOperands i.opcode i.operands = some i := (withOperands_eq_some_iff _ _ _).2 ⟨rfl, rfl⟩
  simp only [encode, List.cons_append, decode, hop, htake, hdrop, hi]

/-- Bytes that decode are the encoding of the instruction answered, followed by the bytes that come back. -/
theorem eq_encode_append_of_decode {bs rest : List Byte} {i : Instr} (h : decode bs = .ok (i, rest)) :
    bs = encode i ++ rest := by
  cases bs with
  | nil => cases h
  | cons b bs =>
    simp only [decode] at h
    split at h
    · cases h
    · rename_i op hop
      split at h
      · rename_i j hj
        cases h
        obtain ⟨rfl, hops⟩ := (withOperands_eq_some_iff op _ i).1 hj
        rw [encode, hops, (opcodeOf_eq_some_iff b _).1 hop, List.cons_append, List.take_append_drop]
      · cases h

/-- Settles O9: an encoding decodes to its instruction, and bytes that decode are an encoding. -/
theorem decodeEncodeAgree : Obligations.DecodeEncodeAgree := by
  intro bs rest i
  constructor
  · exact eq_encode_append_of_decode
  · rintro rfl
    exact decode_encode_append i rest

/-- Settles O10: each word is the encoding of its instruction, followed by the bytes left unread. -/
theorem decodeScenarioWords : Obligations.DecodeScenarioWords :=
  ⟨decode_encode_append (.ldi 0 8) [], decode_encode_append (.add 0 1) [], decode_encode_append (.prn 0) [1],
    decode_encode_append .hlt [], decode_encode_append (.mlt 3 5) [], decode_encode_append (.psh 7) [],
    decode_encode_append (.pop 6) [], decode_encode_append (.cll 1) [], decode_encode_append .ret [0b00010001]⟩

/-- The bytes R63 lists are those that are no opcode's byte. -/
theorem illegalByte_iff_ne_opcodeByte (b : Byte) : IllegalByte b ↔ ∀ op, b ≠ opcodeByte op := by
  constructor
  · rintro h op rfl
    revert h
    unfold IllegalByte
    cases op <;> decide
  · intro h
    have hne (op : Opcode) : b.toNat ≠ (opcodeByte op).toNat := fun he => h op (BitVec.eq_of_toNat_eq he)
    have hhlt : b.toNat ≠ 0x01 := hne .hlt
    have hldi : b.toNat ≠ 0x82 := hne .ldi
    have hprn : b.toNat ≠ 0x47 := hne .prn
    have hadd : b.toNat ≠ 0xA0 := hne .add
    have hmlt : b.toNat ≠ 0xA2 := hne .mlt
    have hpsh : b.toNat ≠ 0x45 := hne .psh
    have hpop : b.toNat ≠ 0x46 := hne .pop
    have hcll : b.toNat ≠ 0x50 := hne .cll
    have hret : b.toNat ≠ 0x11 := hne .ret
    unfold IllegalByte
    bv_omega

/-- The opcode map has no row for exactly the bytes R63 lists. -/
theorem opcodeOf_eq_none_iff (b : Byte) : opcodeOf b = none ↔ IllegalByte b := by
  simp only [illegalByte_iff_ne_opcodeByte, Option.eq_none_iff_forall_ne_some, ne_eq, opcodeOf_eq_some_iff]

/-- The decoder rejects a first byte by name exactly where it selects no opcode. -/
theorem decode_eq_invalidOpcode_iff (b : Byte) (bs : List Byte) :
    decode (b :: bs) = .error (.invalidOpcode b) ↔ opcodeOf b = none := by
  constructor
  · intro h
    simp only [decode] at h
    split at h
    · assumption
    · split at h <;> cases h
  · intro h
    simp only [decode, h]

/-- Settles O11: the decoder's error and the rule's list both say that the byte selects no opcode; the count is closed. -/
theorem illegalBytesRejected : Obligations.IllegalBytesRejected :=
  ⟨fun b bs => (decode_eq_invalidOpcode_iff b bs).trans (opcodeOf_eq_none_iff b), by decide +kernel⟩

/-- A line that stands for an instruction puts its encoding before the bytes of the lines after it (R68). -/
theorem assemble_cons {line : List Char} {lines : List (List Char)} {i : Instr} {bs : List Byte}
    (hline : asmInstr line = some i) (hlines : assemble lines = some bs) :
    assemble (line :: lines) = some (encode i ++ bs) := by
  simp only [assemble, hline, hlines]

/-- Settles O12, line by line. -/
theorem assembledScenario : Obligations.AssembledScenario :=
  assemble_cons (i := .ldi 0 8) (by decide) <|
  assemble_cons (i := .ldi 1 3) (by decide) <|
  assemble_cons (i := .add 0 1) (by decide) <|
  assemble_cons (i := .prn 0) (by decide) <|
  assemble_cons (i := .hlt) (by decide) rfl

end Sys2Proof.Machine
end

section
/-!
PROOFS. The engine: which step is taken, HLT, and the PC update (40_engine.md rules R80 to R87).
-/

namespace Sys2Proof.Machine

/-- Settles O13: the instruction the bytes decode to is the one fetched, and the step is its exec. -/
theorem stepRunsDecodedInstruction : Obligations.StepRunsDecodedInstruction :=
  fun _ _ en h => step_of_fetch_ok en (State.fetch_of_decodesTo h)

/-- Settles O14: HALTED, FAULTED and the hold each keep a step from being enabled. -/
theorem notEnabledFrozen : Obligations.NotEnabledFrozen := by
  intro s h
  refine step_of_not_enabled (Bool.eq_false_iff.2 fun en => ?_)
  obtain ⟨hrun, hfree⟩ := s.enabled_iff.1 en
  obtain hhalted | hfaulted | hheld := h
  · cases hrun.symm.trans hhalted
  · cases hrun.symm.trans hfaulted
  · cases hfree.symm.trans hheld

/-- A fetch with the pc above 255 raises OutOfBounds(MEMORY, pc) (R82). -/
theorem State.fetch_of_pc_above {s : State} (hpc : 255 < s.pc.toNat) : s.fetch = .error (.outOfBounds .memory s.pc) := by
  have hread : s.memReadAt s.pc.toNat = .error (.outOfBounds .memory s.pc) := by
    rw [s.memReadAt_error hpc, BitVec.ofNat_toNat, BitVec.setWidth_eq]
  simp only [State.fetch, hread]

/-- Where a step is enabled with the pc above 255, it faults OutOfBounds(MEMORY, pc) (R82). -/
theorem step_of_pc_above {s : State} (en : s.enabled = true) (hpc : 255 < s.pc.toNat) :
    step s = .next (s.faulted 3 0 s.pc) :=
  step_of_fetch_error en (State.fetch_of_pc_above hpc)

theorem eq_hlt_of_opcode {i : Instr} (h : i.opcode = .hlt) : i = .hlt := by
  cases i with
  | hlt => rfl
  | ldi | prn | add | mlt | psh | pop | cll | ret => cases h

/-- A fetch answers HLT exactly where the byte at the pc is 0x01, at address 255 too (R86). -/
theorem State.fetch_eq_hlt_iff (s : State) :
    s.fetch = .ok .hlt ↔ s.pc.toNat ≤ 255 ∧ s.byteAfterPc 0 = 0x01 := by
  have hbyte : s.byteAfterPc 0 = 0x01 ↔ opcodeOf (s.memRead (BitVec.ofNat 8 s.pc.toNat)) = some .hlt :=
    (opcodeOf_eq_some_iff _ .hlt).symm
  rw [hbyte]
  obtain ⟨hpc, hf⟩ | ⟨-, hop, hf⟩ | ⟨-, op, hop, hend, hf⟩ | ⟨hpc, i, hop, -, -, hf⟩ := s.fetch_cases <;> rw [hf]
  · exact iff_of_false nofun fun h => by omega
  · exact iff_of_false nofun fun h => by cases hop.symm.trans h.2
  · refine iff_of_false nofun fun ⟨hpc, h⟩ => ?_
    cases hop.symm.trans h
    have hlen : nops .hlt = 0 := rfl
    omega
  · constructor
    · rintro ⟨⟩
      exact ⟨Nat.le_of_lt_succ hpc, hop⟩
    · rintro ⟨-, h⟩
      rw [eq_hlt_of_opcode (Option.some.inj (hop.symm.trans h))]

/-- An enabled step that answers HALTED has fetched HLT: no fault and no other effect enters HALTED (R86). -/
theorem fetch_eq_hlt_of_step_halted {s t : State} (en : s.enabled = true) (h : step s = .next t) (ht : t.run = .halted) :
    s.fetch = .ok .hlt := by
  obtain ⟨hidle, -⟩ | ⟨-, e, -, rfl⟩ | ⟨-, i, hi, -, rfl⟩ := step_outcomes h
  · cases hidle.symm.trans en
  · cases ht
  · by_cases hhlt : i = .hlt
    · rwa [hhlt] at hi
    · rw [effect_run_of_ne_hlt s hhlt, (s.enabled_iff.1 en).1] at ht
      cases ht

/-- Settles O16: a step fetches HLT exactly where the byte at the pc is 0x01, and it enters HALTED only by that HLT. -/
theorem hltAloneHaltsInPlace : Obligations.HltAloneHaltsInPlace := by
  refine ⟨rfl, fun s => ?_, fun s en hpc hbyte => ?_, fun s => step_of_pc_above, fun s t en h ht => ?_⟩
  · exact ⟨s.setRun .halted, rfl, rfl, rfl, rfl, fun _ => rfl, rfl, rfl, rfl⟩
  · exact step_of_fetch_ok en (s.fetch_eq_hlt_iff.2 ⟨hpc, hbyte⟩)
  · exact s.fetch_eq_hlt_iff.1 (fetch_eq_hlt_of_step_halted en h ht)

/-- An opcode's length fits in the pc's nine bits above any address, so the sum is not truncated (R85). -/
theorem toNat_pc_add_length {p : PcWord} (op : Opcode) (h : p.toNat ≤ 255) :
    (p + BitVec.ofNat 9 (opcodeLength op)).toNat = p.toNat + (1 + nops op) := by
  have hops := nops_le_two op
  rw [BitVec.toNat_add, BitVec.toNat_ofNat, opcodeLength]
  omega

/-- The pc after the PC update, from a pc an instruction can be fetched at (R85). -/
theorem State.toNat_pc_pcUpdate {s : State} (op : Opcode) (h : s.pc.toNat ≤ 255) :
    (s.pcUpdate op).pc.toNat =
      if op ∈ ([.ldi, .prn, .add, .mlt, .psh, .pop] : List Opcode) then s.pc.toNat + (1 + nops op) else s.pc.toNat := by
  cases op with
  | ldi | prn | add | mlt | psh | pop => exact toNat_pc_add_length _ h
  | cll | ret | hlt => rfl

/-- The PC update neither enables a step nor keeps one from being enabled. -/
@[simp] theorem State.enabled_pcUpdate (s : State) (op : Opcode) : (s.pcUpdate op).enabled = s.enabled := by
  simp [State.enabled]

/-- Settles O17: the sum in nine bits is the full one, and a fetch above 255 faults. -/
theorem pcUpdateInFull : Obligations.PcUpdateInFull := by
  refine fun op s hpc => ⟨State.toNat_pc_pcUpdate op hpc, ⟨rfl, rfl, rfl, rfl, rfl, rfl⟩, fun en habove => ?_⟩
  exact step_of_pc_above ((s.enabled_pcUpdate op).trans en) habove

end Sys2Proof.Machine
end

section
/-!
PROOFS. Load immediate and output (41_load_output.md rules R100, R101), with what they share with every instruction that
has operands: the register check of a first operand, and the fault of an operand byte past address 255.
-/

namespace Sys2Proof.Machine

/-- An instruction whose one register operand is in 0..7 is well formed (R84). -/
theorem wellFormed_of_regOperands_eq_singleton {i : Instr} {b : Byte} (hops : i.regOperands = [b])
    (hb : b.toNat < 8) : i.WellFormed := by
  rw [Instr.WellFormed, hops]
  exact List.forall_mem_singleton.2 hb

/-- With operand1 a register index above 7, exec faults OutOfBounds(REGISTER, operand1) (R84). -/
theorem exec_of_first_regOperand_bad {i : Instr} {b : Byte} {bs : List Byte} (s : State)
    (hops : i.regOperands = b :: bs) (hb : 8 ≤ b.toNat) : exec i s = .next (s.faulted 3 1 (b.setWidth 9)) := by
  have hbad : firstBad i.regOperands = some b := by rw [hops, firstBad_cons, if_pos hb]
  exact exec_of_firstBad s hbad

/-- A fetch whose opcode needs an operand byte past address 255 raises OutOfBounds(MEMORY, 256) (R82). -/
theorem State.fetch_of_operand_above {s : State} {op : Opcode} (hop : s.byteAfterPc 0 = opcodeByte op)
    (hpc : s.pc.toNat ≤ 255) (hend : 255 < s.pc.toNat + nops op) : s.fetch = .error (.outOfBounds .memory 256) := by
  have hread : s.memReadAt s.pc.toNat = .ok (s.byteAfterPc 0) := s.memReadAt_ok (by omega)
  have hops := s.fetchOperands_error (nops op) (s.pc.toNat + 1) (by omega) (by omega)
  simp only [State.fetch, hread, (opcodeOf_eq_some_iff _ op).2 hop, hops]

/-- Where a step is enabled and the opcode at the pc needs an operand byte past address 255, it faults
OutOfBounds(MEMORY, 256) (R82). -/
theorem step_of_operand_above {s : State} {op : Opcode} (en : s.enabled = true) (hop : s.byteAfterPc 0 = opcodeByte op)
    (hpc : s.pc.toNat ≤ 255) (hend : 255 < s.pc.toNat + nops op) : step s = .next (s.faulted 3 0 256) :=
  step_of_fetch_error en (State.fetch_of_operand_above hop hpc hend)

/-- Settles O19: LDI's effect is one register write and the PC update; each fault is the shared one. -/
theorem ldiLoadsImmediate : Obligations.LdiLoadsImmediate := by
  refine fun reg imm => ⟨rfl, fun h s hpc => ?_, fun hbad s => ?_, fun s en hop hend => ?_⟩
  · have hw : (Instr.ldi reg imm).WellFormed := wellFormed_of_regOperands_eq_singleton rfl h
    refine ⟨effect (.ldi reg imm) s, exec_of_wellFormed s hw, ?_, fun r hr => ?_, ?_, fun _ => rfl, rfl, rfl, rfl, rfl⟩
    · rw [← regOf_eq h]
      exact s.x_setX_same (regOf reg) imm
    · rw [← regOf_eq h] at hr
      exact s.x_setX_ne imm hr
    · exact toNat_pc_add_length .ldi hpc
  · exact exec_of_first_regOperand_bad s rfl hbad
  · have hnops : nops .ldi = 2 := rfl
    exact step_of_operand_above (op := .ldi) en hop (by omega) (by omega)

/-- Settles O20: PRN's effect is one emitted value and the PC update; each fault is the shared one. -/
theorem prnEmitsRegister : Obligations.PrnEmitsRegister := by
  refine fun reg => ⟨rfl, fun h s hpc => ?_, fun hbad s => ?_, fun s en hop hend => ?_⟩
  · have hw : (Instr.prn reg).WellFormed := wellFormed_of_regOperands_eq_singleton rfl h
    refine ⟨effect (.prn reg) s, exec_of_wellFormed s hw, ?_, rfl, ?_, fun _ => rfl, rfl, rfl, rfl⟩
    · rw [← regOf_eq h]
      rfl
    · exact toNat_pc_add_length .prn hpc
  · exact exec_of_first_regOperand_bad s rfl hbad
  · have hnops : nops .prn = 1 := rfl
    exact step_of_operand_above (op := .prn) en hop (by omega) (by omega)

end Sys2Proof.Machine
end

section
/-!
PROOFS. The ALU and its two instructions (42_alu.md rules R110 to R113), with what every three-byte instruction shares: the
register check of a second operand, the PC update by 3, and the fault of an opcode at 254 or 255.
-/

namespace Sys2Proof.Machine

/-! ### The two results -/

@[simp] theorem toNat_aluSum (a b : Byte) : (aluSum a b).toNat = (a.toNat + b.toNat) % 256 := BitVec.toNat_ofNat _ 8

@[simp] theorem toNat_aluProduct (a b : Byte) : (aluProduct a b).toNat = a.toNat * b.toNat % 256 := BitVec.toNat_ofNat _ 8

theorem aluSum_eq_add (a b : Byte) : aluSum a b = a + b := BitVec.eq_of_toNat_eq (toNat_aluSum a b)

theorem aluProduct_eq_mul (a b : Byte) : aluProduct a b = a * b := BitVec.eq_of_toNat_eq (toNat_aluProduct a b)

/-- Settles O26: the ALU's results are the sum and the product of 8-bit words, whose laws the library has. -/
theorem arithmeticLaws : Obligations.ArithmeticLaws := by
  refine ⟨fun a b => ?_, by decide⟩
  simp only [aluSum_eq_add, aluProduct_eq_mul]
  exact ⟨BitVec.add_comm a b, BitVec.mul_comm a b, BitVec.add_zero a, BitVec.mul_zero, BitVec.mul_one a⟩

/-! ### The ALU on its own -/

/-- A register write changes that register alone (R9, R20). -/
theorem State.setX_frame (s : State) (r : Reg) (v : Byte) :
    SameRegsExcept (· = r) s (s.setX r v) ∧ (s.setX r v).pc = s.pc ∧ SameMem s (s.setX r v) ∧ (s.setX r v).out = s.out ∧
      SameControl s (s.setX r v) :=
  ⟨fun _ hne => s.x_setX_ne v hne, rfl, fun _ => rfl, rfl, rfl, rfl, rfl⟩

/-- Settles O23: ADD and MLT answer one register write of their result; any other tag raises and writes nothing. -/
theorem aluComputesOrFaults : Obligations.AluComputesOrFaults := by
  refine fun a b s => ⟨⟨s.setX a (aluSum (s.x a) (s.x b)), rfl, ?_, s.setX_frame a _⟩,
    ⟨s.setX a (aluProduct (s.x a) (s.x b)), rfl, ?_, s.setX_frame a _⟩, fun _ => ⟨rfl, rfl⟩⟩
  · rw [s.x_setX_same, toNat_aluSum]
  · rw [s.x_setX_same, toNat_aluProduct]

/-! ### What three-byte instructions share -/

/-- An instruction whose two register operands are in 0..7 is well formed (R84). -/
theorem wellFormed_of_regOperands_eq_pair {i : Instr} {a b : Byte} (hops : i.regOperands = [a, b])
    (ha : a.toNat < 8) (hb : b.toNat < 8) : i.WellFormed := by
  rw [Instr.WellFormed, hops]
  exact List.forall_mem_cons.2 ⟨ha, List.forall_mem_singleton.2 hb⟩

/-- With operand1 in 0..7 and operand2 a register index above 7, exec faults OutOfBounds(REGISTER, operand2) (R84). -/
theorem exec_of_second_regOperand_bad {i : Instr} {a b : Byte} {bs : List Byte} (s : State)
    (hops : i.regOperands = a :: b :: bs) (ha : a.toNat < 8) (hb : 8 ≤ b.toNat) :
    exec i s = .next (s.faulted 3 1 (b.setWidth 9)) := by
  have hbad : firstBad i.regOperands = some b := by
    rw [hops, firstBad_cons, if_neg (Nat.not_le.2 ha), firstBad_cons, if_pos hb]
  exact exec_of_firstBad s hbad

/-- The PC update of an opcode with two operand bytes adds 3 in full (R85). -/
theorem State.toNat_pc_pcUpdate_of_nops_eq_two {s : State} {op : Opcode} (hops : nops op = 2) (hpc : s.pc.toNat ≤ 255) :
    (s.pcUpdate op).pc.toNat = s.pc.toNat + 3 := by
  cases op with
  | ldi | add | mlt => exact toNat_pc_add_length _ hpc
  | hlt | prn | psh | pop | cll | ret => cases hops

/-- An enabled step whose opcode has two operand bytes and is at 254 or 255 faults OutOfBounds(MEMORY, 256) (R82). -/
theorem step_of_nops_eq_two_at_end {s : State} {op : Opcode} (hops : nops op = 2) (en : s.enabled = true)
    (hop : s.byteAfterPc 0 = opcodeByte op) (hend : s.pc.toNat = 254 ∨ s.pc.toNat = 255) :
    step s = .next (s.faulted 3 0 256) :=
  step_of_operand_above en hop (by omega) (by omega)

/-- A well-formed three-byte instruction whose effect is one register write and the PC update: the value, and the frame. -/
theorem exec_of_effect_eq_setX {i : Instr} {s : State} {r : Reg} {v : Byte} (hw : i.WellFormed)
    (heff : effect i s = (s.setX r v).pcUpdate i.opcode) (hops : nops i.opcode = 2) (hpc : s.pc.toNat ≤ 255) :
    ∃ t, exec i s = .next t ∧ t.x r = v ∧ SameRegsExcept (· = r) s t ∧ t.pc.toNat = s.pc.toNat + 3 ∧ SameMem s t ∧
      t.out = s.out ∧ SameControl s t := by
  have hexec : exec i s = .next ((s.setX r v).pcUpdate i.opcode) := heff ▸ exec_of_wellFormed s hw
  refine ⟨_, hexec, by simp, fun q hq => ?_, State.toNat_pc_pcUpdate_of_nops_eq_two hops hpc, fun _ => by simp, by simp,
    by simp [SameControl]⟩
  rw [State.x_pcUpdate, s.x_setX_ne v hq]

/-! ### ADD and MLT -/

/-- Settles O24: ADD's effect is the write of the sum and the PC update; each fault is the shared one. -/
theorem addWrapsModulo256 : Obligations.AddWrapsModulo256 := by
  refine fun regA regB => ⟨rfl, fun hA hB s hpc => ?_, fun hA s => exec_of_first_regOperand_bad s rfl hA,
    fun hA hB s => exec_of_second_regOperand_bad s rfl hA hB, fun s => step_of_nops_eq_two_at_end (op := .add) rfl⟩
  have hw : (Instr.add regA regB).WellFormed := wellFormed_of_regOperands_eq_pair rfl hA hB
  rw [← regOf_eq hA, ← regOf_eq hB, ← toNat_aluSum]
  obtain ⟨t, hexec, hx, hframe⟩ := exec_of_effect_eq_setX (s := s) hw rfl rfl hpc
  exact ⟨t, hexec, congrArg BitVec.toNat hx, hframe⟩

/-- Settles O25: MLT's effect is the write of the product's low byte and the PC update; each fault is the shared one. -/
theorem mltKeepsLowByte : Obligations.MltKeepsLowByte := by
  refine fun regA regB => ⟨rfl, fun hA hB s hpc => ?_, fun hA s => exec_of_first_regOperand_bad s rfl hA,
    fun hA hB s => exec_of_second_regOperand_bad s rfl hA hB, fun s => step_of_nops_eq_two_at_end (op := .mlt) rfl⟩
  have hw : (Instr.mlt regA regB).WellFormed := wellFormed_of_regOperands_eq_pair rfl hA hB
  rw [← regOf_eq hA, ← regOf_eq hB, ← toNat_aluProduct]
  obtain ⟨t, hexec, hx, hframe⟩ := exec_of_effect_eq_setX (s := s) hw rfl rfl hpc
  exact ⟨t, hexec, congrArg BitVec.toNat hx, hframe⟩

end Sys2Proof.Machine
end

section
/-!
PROOFS. The stack (43_stack.md rules R120 to R124): what push and popClean leave unchanged, PSH and POP on top of them,
and the last-in first-out law.
-/

namespace Sys2Proof.Machine

/-! ### push and popClean -/

/-- SP after a push is one less, modulo 256 (R120). -/
theorem State.toNat_sp_push (s : State) (v : Byte) : (s.push v).sp.toNat = (s.sp.toNat + 255) % 256 := by
  rw [s.sp_push]
  bv_omega

/-- SP after popClean is one more, modulo 256 (R121). -/
theorem State.toNat_sp_popClean (s : State) : s.popClean.sp.toNat = (s.sp.toNat + 1) % 256 := by
  rw [s.sp_popClean]
  exact BitVec.toNat_add s.sp 1

/-- push changes SP and the cell at the new SP alone (R120). -/
theorem State.push_frame (s : State) (v : Byte) :
    SameMemExcept s.decSp.sp s (s.push v) ∧ SameRegsExcept (· = 7) s (s.push v) ∧ (s.push v).pc = s.pc ∧
      (s.push v).out = s.out ∧ SameControl s (s.push v) :=
  ⟨fun _ ha => s.memRead_push_ne v (s.sp_decSp ▸ ha), fun _ hr => s.x_push_ne v hr, rfl, rfl, rfl, rfl, rfl⟩

/-- popClean changes SP and the cell at the old SP alone (R121). -/
theorem State.popClean_frame (s : State) :
    SameMemExcept s.sp s s.popClean ∧ SameRegsExcept (· = 7) s s.popClean ∧ s.popClean.pc = s.pc ∧
      s.popClean.out = s.out ∧ SameControl s s.popClean :=
  ⟨fun _ ha => s.memRead_popClean_ne ha, fun _ hr => s.x_popClean_ne hr, rfl, rfl, rfl, rfl, rfl⟩

/-- Settles O27: the byte pushed is the one at the new SP, and the rest is push's frame. -/
theorem pushWritesBelowSp : Obligations.PushWritesBelowSp := by
  refine ⟨fun s v hm => ?_, fun v => State.popRead_push v Memory.wf_reset⟩
  exact ⟨s.toNat_sp_push v, State.popRead_push v hm, rfl, s.push_frame v⟩

/-- Settles O28: the cell at SP is zeroed, and the rest is popClean's frame. -/
theorem popReadsZeroesRaises : Obligations.PopReadsZeroesRaises :=
  fun s hm => ⟨rfl, State.memRead_popClean_same hm, s.toNat_sp_popClean, s.popClean_frame⟩

/-! ### PSH -/

/-- PSH reads its register after the decrement, which only `PSH r7` can tell (R122, decision D9). -/
theorem State.x_decSp (s : State) (r : Reg) : s.decSp.x r = if r = spReg then s.decSp.sp else s.x r := by
  rw [s.sp_decSp]
  exact s.x_setX spReg r (s.sp - 1)

theorem regOf_eq_spReg_iff {reg : Byte} (h : reg.toNat < 8) : regOf reg = spReg ↔ reg.toNat = 7 := by
  rw [regOf_eq h, Fin.ext_iff]
  rfl

/-- r0 to r6 are not the stack pointer (R22). -/
theorem regOf_ne_spReg {reg : Byte} (h : reg.toNat < 7) : regOf reg ≠ spReg :=
  mt (regOf_eq_spReg_iff (Nat.lt_succ_of_lt h)).1 (Nat.ne_of_lt h)

theorem sp_effect_psh (reg : Byte) (s : State) : (effect (.psh reg) s).sp = s.decSp.sp := rfl

theorem toNat_sp_effect_psh (reg : Byte) (s : State) : (effect (.psh reg) s).sp.toNat = (s.sp.toNat + 255) % 256 :=
  s.toNat_sp_push (s.decSp.x (regOf reg))

/-- The cell at the new SP after a PSH holds the register, read after the decrement (R122). -/
theorem popRead_effect_psh {s : State} (reg : Byte) (hm : s.mem.wf) :
    (effect (.psh reg) s).popRead = s.decSp.x (regOf reg) :=
  State.popRead_push _ hm

/-- An enabled step whose opcode has one operand byte and is at 255 faults OutOfBounds(MEMORY, 256) (R82). -/
theorem step_of_nops_eq_one_at_end {s : State} {op : Opcode} (hops : nops op = 1) (en : s.enabled = true)
    (hop : s.byteAfterPc 0 = opcodeByte op) (hend : s.pc.toNat = 255) : step s = .next (s.faulted 3 0 256) :=
  step_of_operand_above en hop (by omega) (by omega)

/-- Settles O29: PSH's effect is a push and the PC update; each fault is the shared one. -/
theorem pshStoresBelowSp : Obligations.PshStoresBelowSp := by
  refine fun reg => ⟨rfl, fun h s hm hpc => ?_, fun hbad s => exec_of_first_regOperand_bad s rfl hbad,
    fun s => step_of_nops_eq_one_at_end (op := .psh) rfl⟩
  have hw : (Instr.psh reg).WellFormed := wellFormed_of_regOperands_eq_singleton rfl h
  have hcell : (effect (.psh reg) s).memRead s.decSp.sp =
      if reg.toNat = 7 then s.decSp.sp else s.x ⟨reg.toNat, h⟩ := by
    calc (effect (.psh reg) s).memRead s.decSp.sp
        = s.decSp.x (regOf reg) := popRead_effect_psh reg hm
      _ = if reg.toNat = 7 then s.decSp.sp else s.x ⟨reg.toNat, h⟩ := by
        simp only [s.x_decSp, regOf_eq_spReg_iff h]
        rw [regOf_eq h]
  obtain ⟨hmem, hregs, -, hout, hcontrol⟩ := s.push_frame (s.decSp.x (regOf reg))
  exact ⟨effect (.psh reg) s, exec_of_wellFormed s hw, toNat_sp_effect_psh reg s, sp_effect_psh reg s, hcell, hmem,
    hregs, toNat_pc_add_length .psh hpc, hout, hcontrol⟩

/-! ### POP -/

/-- The cell a POP zeroes: the one SP addresses once the popped byte is in the register (R123). -/
def popCell (reg : Byte) (s : State) : Byte := (s.setX (regOf reg) s.popRead).sp

/-- A POP of r0..r6 zeroes the cell it read. -/
theorem popCell_of_lt {reg : Byte} (s : State) (h : reg.toNat < 7) : popCell reg s = s.sp :=
  s.x_setX_ne s.popRead (regOf_ne_spReg h).symm

/-- POP r7 zeroes the cell the popped value addresses (decision D9, conflict C11). -/
theorem popCell_of_eq {reg : Byte} (s : State) (h : reg.toNat = 7) : popCell reg s = s.memRead s.sp := by
  have hr : regOf reg = spReg := (regOf_eq_spReg_iff (by omega)).2 h
  rw [popCell, hr]
  exact s.x_setX_same spReg s.popRead

theorem sp_effect_pop (reg : Byte) (s : State) : (effect (.pop reg) s).sp = popCell reg s + 1 :=
  State.sp_popClean _

theorem toNat_sp_effect_pop (reg : Byte) (s : State) :
    (effect (.pop reg) s).sp.toNat = ((popCell reg s).toNat + 1) % 256 :=
  State.toNat_sp_popClean _

theorem memRead_effect_pop_same {s : State} (reg : Byte) (hm : s.mem.wf) :
    (effect (.pop reg) s).memRead (popCell reg s) = 0 :=
  State.memRead_popClean_same (s := s.setX (regOf reg) s.popRead) hm

theorem sameMemExcept_effect_pop (reg : Byte) (s : State) : SameMemExcept (popCell reg s) s (effect (.pop reg) s) :=
  fun _ ha => State.memRead_popClean_ne (s.setX (regOf reg) s.popRead) ha

/-- POP changes no register but SP and the one it names (R123). -/
theorem x_effect_pop_ne (s : State) {reg : Byte} {r : Reg} (hr : r ≠ regOf reg) (hsp : r ≠ spReg) :
    (effect (.pop reg) s).x r = s.x r :=
  (State.x_popClean_ne _ hsp).trans (s.x_setX_ne s.popRead hr)

/-- A POP of r0..r6 puts the byte at SP in its register (R123). -/
theorem x_effect_pop_same (s : State) {reg : Byte} (h : reg.toNat < 7) :
    (effect (.pop reg) s).x (regOf reg) = s.popRead :=
  (State.x_popClean_ne _ (regOf_ne_spReg h)).trans (s.x_setX_same (regOf reg) s.popRead)

/-- Settles O30: POP is a register write, popClean and the PC update; r7 and the others differ in the cell zeroed, and
each fault is the shared one. -/
theorem popLoadsAndZeroes : Obligations.PopLoadsAndZeroes := by
  refine fun reg => ⟨rfl, fun h s hm hpc => ?_, fun h s hm hpc => ?_,
    fun hbad s => exec_of_first_regOperand_bad s rfl hbad, fun s => step_of_nops_eq_one_at_end (op := .pop) rfl⟩
  · have hlt : reg.toNat < 8 := Nat.lt_succ_of_lt h
    have hw : (Instr.pop reg).WellFormed := wellFormed_of_regOperands_eq_singleton rfl hlt
    rw [← regOf_eq hlt, ← popCell_of_lt s h]
    refine ⟨effect (.pop reg) s, exec_of_wellFormed s hw, ?_, memRead_effect_pop_same reg hm,
      toNat_sp_effect_pop reg s, sameMemExcept_effect_pop reg s, fun r hr => ?_,
      toNat_pc_add_length .pop hpc, rfl, rfl, rfl, rfl⟩
    · rw [popCell_of_lt s h]
      exact x_effect_pop_same s h
    · exact x_effect_pop_ne s (fun he => hr (.inl he)) fun he => hr (.inr he)
  · have hw : (Instr.pop reg).WellFormed := wellFormed_of_regOperands_eq_singleton rfl (by omega)
    have hr : regOf reg = spReg := (regOf_eq_spReg_iff (by omega)).2 h
    rw [← popCell_of_eq s h]
    exact ⟨effect (.pop reg) s, exec_of_wellFormed s hw, toNat_sp_effect_pop reg s, memRead_effect_pop_same reg hm,
      sameMemExcept_effect_pop reg s, fun r hne => x_effect_pop_ne s (hr ▸ hne) hne,
      toNat_pc_add_length .pop hpc, rfl, rfl, rfl, rfl⟩

/-! ### PSH then POP -/

/-- Settles O31: the byte POP reads is the one PSH stored, and both work on the same cell. -/
theorem pshThenPopMovesValue : Obligations.PshThenPopMovesValue := by
  intro a b ha hb s t u hm hpsh hpop
  have ha8 : a.toNat < 8 := Nat.lt_succ_of_lt ha
  have hb8 : b.toNat < 8 := Nat.lt_succ_of_lt hb
  cases (exec_of_wellFormed s (wellFormed_of_regOperands_eq_singleton rfl ha8)).symm.trans hpsh
  cases (exec_of_wellFormed _ (wellFormed_of_regOperands_eq_singleton rfl hb8)).symm.trans hpop
  have hm' : (effect (.psh a) s).mem.wf := effect_mem_wf (.psh a) hm
  have hcell := popCell_of_lt (effect (.psh a) s) hb
  obtain ⟨hpush, -⟩ := s.push_frame (s.decSp.x (regOf a))
  rw [← regOf_eq ha8, ← regOf_eq hb8]
  refine ⟨?_, ?_, hcell ▸ memRead_effect_pop_same b hm', fun c hc => ?_⟩
  · rw [x_effect_pop_same _ hb, popRead_effect_psh a hm, s.x_decSp, if_neg (regOf_ne_spReg ha)]
  · rw [sp_effect_pop, hcell, sp_effect_psh, s.sp_decSp]
    exact BitVec.sub_add_cancel s.sp 1
  · exact (sameMemExcept_effect_pop b _ c (hcell ▸ hc)).trans (hpush c hc)

/-! ### Last in, first out -/

/-- A sequence of pushes keeps the canonical form. -/
theorem pushAll_wf {s : State} (vs : List Byte) (h : s.mem.wf) : (pushAll vs s).mem.wf := by
  induction vs generalizing s with
  | nil => exact h
  | cons v vs ih => exact ih (State.push_wf v h)

/-- A sequence of pops keeps the canonical form. -/
theorem popMany_wf {s : State} (n : Nat) (h : s.mem.wf) : (popMany n s).2.mem.wf := by
  induction n generalizing s with
  | zero => exact h
  | succ n ih => exact ih (State.popClean_wf h)

/-- The last of `n + 1` pops comes after the first `n`. -/
theorem popMany_succ (n : Nat) (s : State) :
    popMany (n + 1) s = ((popMany n s).1 ++ [(popMany n s).2.popRead], (popMany n s).2.popClean) := by
  induction n generalizing s with
  | zero => rfl
  | succ n ih =>
    rw [popMany, ih s.popClean]
    rfl

/-- A cell is among the `n + 1` from `p` down exactly if it is `p` or among the `n` below it. -/
theorem toNat_sub_lt_succ_iff {p a : Byte} {n : Nat} (hn : n ≤ 255) :
    (p - a).toNat < n + 1 ↔ a = p ∨ (p - 1 - a).toNat < n := by
  bv_omega

/-- Settles O32, by induction on the bytes from the first one on: it is pushed first, and popped last. -/
theorem stackIsLifo : Obligations.StackIsLifo := by
  intro vs s hm hlen
  induction vs generalizing s with
  | nil => exact ⟨rfl, rfl, fun a => by simp [pushAll, popMany]⟩
  | cons v vs ih =>
    have hn : vs.length ≤ 255 := Nat.le_of_succ_le_succ hlen
    obtain ⟨hvals, hsp, hmem⟩ := ih (s.push v) (State.push_wf v hm) (by omega)
    have hwf := popMany_wf vs.length (pushAll_wf vs (State.push_wf v hm))
    have hpush : pushAll (v :: vs) s = pushAll vs (s.push v) := rfl
    rw [List.length_cons, hpush, popMany_succ, List.reverse_cons]
    generalize popMany vs.length (pushAll vs (s.push v)) = r at *
    refine ⟨?_, ?_, fun a => ?_⟩
    · have hfirst : ¬ ((s.push v).sp - 1 - (s.push v).sp).toNat < vs.length := by bv_omega
      have hlast : r.2.popRead = v := by
        rw [State.popRead, hsp, hmem, if_neg hfirst]
        exact State.popRead_push v hm
      rw [hvals, hlast]
    · rw [State.sp_popClean, hsp, s.sp_push]
      exact BitVec.sub_add_cancel s.sp 1
    · rw [← s.sp_push v]
      simp only [toNat_sub_lt_succ_iff hn]
      by_cases ha : a = (s.push v).sp
      · rw [if_pos (.inl ha), ha, ← hsp]
        exact State.memRead_popClean_same hwf
      · rw [State.memRead_popClean_ne _ (hsp ▸ ha), hmem, s.memRead_push_ne v (s.sp_push v ▸ ha)]
        simp only [ha, false_or]

end Sys2Proof.Machine
end

section
/-!
PROOFS. Call and return (44_call_return.md rules R130 to R132): CLL is a push and a jump, RET a jump and a popClean, and
a RET after a CLL undoes its push.
-/

namespace Sys2Proof.Machine

/-! ### CLL -/

@[simp] theorem toNat_pcOfByte (b : Byte) : (pcOfByte b).toNat = b.toNat :=
  BitVec.toNat_setWidth_of_le (by decide)

/-- The byte CLL pushes is the pc itself, which is at most 254 where a CLL was fetched (R130). -/
theorem toNat_byteOfPc {p : PcWord} (h : p.toNat ≤ 255) : (byteOfPc p).toNat = p.toNat :=
  (BitVec.toNat_setWidth 8 p).trans (Nat.mod_eq_of_lt (by omega))

theorem sp_effect_cll (reg : Byte) (s : State) : (effect (.cll reg) s).sp = s.decSp.sp := rfl

/-- CLL reads its target after the push, so `CLL r7` goes to the new SP (R130, decision D9). -/
theorem toNat_pc_effect_cll {reg : Byte} (s : State) (h : reg.toNat < 8) :
    (effect (.cll reg) s).pc.toNat = if reg.toNat = 7 then s.decSp.sp.toNat else (s.x ⟨reg.toNat, h⟩).toNat := by
  calc (effect (.cll reg) s).pc.toNat
      = (s.decSp.x (regOf reg)).toNat := toNat_pcOfByte _
    _ = if reg.toNat = 7 then s.decSp.sp.toNat else (s.x ⟨reg.toNat, h⟩).toNat := by
      simp only [s.x_decSp, regOf_eq_spReg_iff h, apply_ite BitVec.toNat]
      rw [regOf_eq h]

/-- CLL goes to an address an opcode can be fetched at (R130). -/
theorem toNat_pc_effect_cll_lt (reg : Byte) (s : State) : (effect (.cll reg) s).pc.toNat < 256 :=
  (toNat_pcOfByte (s.decSp.x (regOf reg))).trans_lt (BitVec.isLt _)

/-- The cell at the new SP after a CLL holds the CLL's own address (R130, conflict C8). -/
theorem toNat_popRead_effect_cll {s : State} (reg : Byte) (hm : s.mem.wf) (hpc : s.pc.toNat ≤ 254) :
    (effect (.cll reg) s).popRead.toNat = s.pc.toNat := by
  have hpushed : (effect (.cll reg) s).popRead = byteOfPc s.pc := State.popRead_push (byteOfPc s.pc) hm
  rw [hpushed]
  exact toNat_byteOfPc (Nat.le_succ_of_le hpc)

/-- CLL changes the pc, SP and the cell at the new SP alone (R130). -/
theorem effect_cll_frame (reg : Byte) (s : State) :
    SameMemExcept s.decSp.sp s (effect (.cll reg) s) ∧ SameRegsExcept (· = 7) s (effect (.cll reg) s) ∧
      (effect (.cll reg) s).out = s.out ∧ SameControl s (effect (.cll reg) s) := by
  obtain ⟨hmem, hregs, -, hrest⟩ := s.push_frame (byteOfPc s.pc)
  exact ⟨hmem, hregs, hrest⟩

/-- Settles O33: CLL's effect is a push of its own address and a jump; each fault is the shared one. -/
theorem cllPushesOwnAddress : Obligations.CllPushesOwnAddress := by
  refine fun reg => ⟨rfl, fun h s hm hpc => ?_, fun hbad s => exec_of_first_regOperand_bad s rfl hbad,
    fun s => step_of_nops_eq_one_at_end (op := .cll) rfl⟩
  have hw : (Instr.cll reg).WellFormed := wellFormed_of_regOperands_eq_singleton rfl h
  exact ⟨effect (.cll reg) s, exec_of_wellFormed s hw, s.toNat_sp_push (byteOfPc s.pc), sp_effect_cll reg s,
    toNat_popRead_effect_cll reg hm hpc, toNat_pc_effect_cll s h, effect_cll_frame reg s⟩

/-! ### RET -/

theorem exec_ret (s : State) : exec .ret s = .next (effect .ret s) := rfl

theorem sp_effect_ret (s : State) : (effect .ret s).sp = s.sp + 1 := State.sp_popClean _

/-- RET goes to the popped byte plus 2, not truncated to 8 bits (R131, conflict C9). -/
theorem toNat_pc_effect_ret (s : State) : (effect .ret s).pc.toNat = s.popRead.toNat + 2 := by
  have htwo : Config.retAdjust.toNat = 2 := rfl
  have hsum : (effect .ret s).pc.toNat = (s.popRead.toNat + 2) % 2 ^ 9 := by
    rw [← toNat_pcOfByte, ← htwo]
    exact BitVec.toNat_add _ _
  rw [hsum]
  omega

theorem memRead_effect_ret_same {s : State} (hm : s.mem.wf) : (effect .ret s).memRead s.sp = 0 :=
  State.memRead_popClean_same (s := s.setPc (pcOfByte s.popRead + Config.retAdjust)) hm

/-- RET changes the pc, SP and the cell at the old SP alone (R131). -/
theorem effect_ret_frame (s : State) :
    SameMemExcept s.sp s (effect .ret s) ∧ SameRegsExcept (· = 7) s (effect .ret s) ∧
      (effect .ret s).out = s.out ∧ SameControl s (effect .ret s) := by
  obtain ⟨hmem, hregs, -, hrest⟩ := (s.setPc (pcOfByte s.popRead + Config.retAdjust)).popClean_frame
  exact ⟨hmem, hregs, hrest⟩

/-- Settles O34: RET's effect is a jump and a popClean, and a pc above 255 makes the next fetch fault. -/
theorem retResumesTwoPast : Obligations.RetResumesTwoPast := by
  refine ⟨rfl, fun s hm => ?_, fun s t hret en hpop => ?_, fun s => step_of_pc_above⟩
  · exact ⟨effect .ret s, exec_ret s, toNat_pc_effect_ret s, memRead_effect_ret_same hm, State.toNat_sp_popClean _,
      effect_ret_frame s⟩
  · cases (exec_ret s).symm.trans hret
    have hpc : (effect .ret s).pc.toNat = (s.memRead s.sp).toNat + 2 := toNat_pc_effect_ret s
    exact step_of_pc_above en (by omega)

/-! ### CLL then RET -/

/-- A fetch that meets the byte 0x11 answers RET, at address 255 too, since no operand follows (R131). -/
theorem State.fetch_eq_ret {s : State} (hpc : s.pc.toNat < 256) (hop : s.byteAfterPc 0 = 0x11) :
    s.fetch = .ok .ret := by
  have hread : s.memReadAt s.pc.toNat = .ok 0x11 := hop ▸ s.memReadAt_ok hpc
  have hret : opcodeOf 0x11 = some .ret := rfl
  have hops : s.fetchOperands (nops .ret) (s.pc.toNat + 1) = .ok [] := rfl
  have hmade : withOperands .ret [] = some .ret := rfl
  simp only [State.fetch, hread, hret, hops, hmade]

/-- A RET in the state a CLL leaves gives back every register, SP among them (R132). -/
theorem x_effect_ret_effect_cll (reg : Byte) (s : State) (r : Reg) :
    (effect .ret (effect (.cll reg) s)).x r = s.x r := by
  by_cases hr : r = spReg
  · subst hr
    show (effect .ret (effect (.cll reg) s)).sp = s.sp
    rw [sp_effect_ret, sp_effect_cll, s.sp_decSp]
    exact BitVec.sub_add_cancel s.sp 1
  · obtain ⟨-, hcll, -⟩ := effect_cll_frame reg s
    obtain ⟨-, hret, -⟩ := effect_ret_frame (effect (.cll reg) s)
    exact (hret r hr).trans (hcll r hr)

/-- Settles O35: the byte RET pops is the address CLL pushed, and both work on the same cell. -/
theorem callThenReturnResumes : Obligations.CallThenReturnResumes := by
  intro s t reg hm en hreg hdec hcall hcallee
  have hw : (Instr.cll reg).WellFormed := wellFormed_of_regOperands_eq_singleton rfl hreg
  cases (step_of_decodesTo en hdec hw).symm.trans hcall
  have hsite : s.pc.toNat ≤ 254 :=
    Nat.le_of_add_le_add_right (b := 2) (State.pc_add_length_le_of_fetch (State.fetch_of_decodesTo hdec))
  have hreturn : step (effect (.cll reg) s) = .next (effect .ret (effect (.cll reg) s)) :=
    step_of_fetch_ok (s := effect (.cll reg) s) en (State.fetch_eq_ret (toNat_pc_effect_cll_lt reg s) hcallee)
  obtain ⟨hcll, -⟩ := effect_cll_frame reg s
  obtain ⟨hret, -⟩ := effect_ret_frame (effect (.cll reg) s)
  refine ⟨_, hreturn, ?_, x_effect_ret_effect_cll reg s spReg, memRead_effect_ret_same (effect_mem_wf _ hm),
    fun a ha => (hret a ha).trans (hcll a ha), fun r _ => x_effect_ret_effect_cll reg s r, (s.enabled_iff.1 en).1⟩
  rw [toNat_pc_effect_ret, toNat_popRead_effect_cll reg hm hsite]

end Sys2Proof.Machine
end

section
/-!
PROOFS. The host's interface: what each action answers, and that none leaves the invariant (60_exceptions.md rule R152).
-/

namespace Sys2Proof.Machine

theorem hostAct_load_of_held {s : State} (h : s.held = true) (a v : Byte) :
    hostAct (.load a v) s = .next (s.memWrite a v) := if_pos h

theorem hostAct_start_of_held {s : State} (h : s.held = true) : hostAct .start s = .next s.release := if_pos h

theorem hostAct_load_of_free {s : State} (h : s.held = false) (a v : Byte) :
    hostAct (.load a v) s = .refused .hostActionNotAllowed := if_neg (Bool.eq_false_iff.1 h)

theorem hostAct_start_of_free {s : State} (h : s.held = false) :
    hostAct .start s = .refused .hostActionNotAllowed := if_neg (Bool.eq_false_iff.1 h)

theorem readState_of_ended {s : State} (h : s.ended = true) :
    readState s = .ok { regs := s.regs, pc := s.pc, mem := s.mem, run := s.run, fault := s.fault } := if_pos h

theorem readState_of_not_ended {s : State} (h : s.ended = false) : readState s = .error .hostActionNotAllowed :=
  if_neg (Bool.eq_false_iff.1 h)

theorem hostAct_readState_of_ended {s : State} (h : s.ended = true) : hostAct .readState s = .next s := by
  simp only [hostAct, readState_of_ended h]

theorem hostAct_readState_of_not_ended {s : State} (h : s.ended = false) :
    hostAct .readState s = .refused .hostActionNotAllowed := by
  simp only [hostAct, readState_of_not_ended h]

/-- What a host action that is not refused can do: RESET, a LOAD or START under the hold, or a reading. -/
theorem hostAct_outcomes {a : HostAction} {s t : State} (h : hostAct a s = .next t) :
    t = State.reset ∨ (s.held = true ∧ ∃ addr v, t = s.memWrite addr v) ∨ (s.held = true ∧ t = s.release) ∨ t = s := by
  cases a with
  | reset => cases h; exact .inl rfl
  | load addr v =>
    cases hheld : s.held with
    | true =>
      rw [hostAct_load_of_held hheld] at h
      cases h
      exact .inr (.inl ⟨rfl, addr, v, rfl⟩)
    | false =>
      rw [hostAct_load_of_free hheld] at h
      cases h
  | start =>
    cases hheld : s.held with
    | true =>
      rw [hostAct_start_of_held hheld] at h
      cases h
      exact .inr (.inr (.inl ⟨rfl, rfl⟩))
    | false =>
      rw [hostAct_start_of_free hheld] at h
      cases h
  | readOut => cases h; exact .inr (.inr (.inr rfl))
  | readState =>
    cases hend : s.ended with
    | true =>
      rw [hostAct_readState_of_ended hend] at h
      cases h
      exact .inr (.inr (.inr rfl))
    | false =>
      rw [hostAct_readState_of_not_ended hend] at h
      cases h

/-- A LOAD under the hold keeps the invariant: only the memory differs from reset still (R152). -/
theorem Inv.memWrite_of_held {s : State} (hs : Inv s) (h : s.held = true) (a v : Byte) : Inv (s.memWrite a v) where
  mem_wf := Memory.wf_write a v hs.mem_wf
  pc_reachable := hs.pc_reachable
  recorded_iff_faulted := hs.recorded_iff_faulted
  recorded_pc := hs.recorded_pc
  record_legal := hs.record_legal
  held_fresh _ := by
    obtain ⟨m, rfl⟩ := hs.held_fresh h
    exact ⟨m.write a v, rfl⟩

/-- START under the hold keeps the invariant: the run state reads RUNNING before it too, so no fault is recorded (R152). -/
theorem Inv.release_of_held {s : State} (hs : Inv s) (h : s.held = true) : Inv s.release where
  mem_wf := hs.mem_wf
  pc_reachable := hs.pc_reachable
  recorded_iff_faulted := by
    rw [State.release_run, ← hs.run_of_held h]
    exact hs.recorded_iff_faulted
  recorded_pc := hs.recorded_pc
  record_legal := hs.record_legal
  held_fresh := nofun

/-- Settles O8, along the outcomes of a host action. -/
theorem invKeptByHost : Obligations.InvKeptByHost := by
  intro a s t hs h
  obtain rfl | ⟨hheld, addr, v, rfl⟩ | ⟨hheld, rfl⟩ | rfl := hostAct_outcomes h
  · exact invAtReset
  · exact hs.memWrite_of_held hheld addr v
  · exact hs.release_of_held hheld
  · exact hs

/-- Settles O3: each action where it is allowed and where it is refused. -/
theorem hostActionsAllowed : Obligations.HostActionsAllowed := by
  refine fun s => ⟨rfl, fun hheld a v => ?_, hostAct_start_of_held, fun hfree => ?_, ⟨rfl, rfl⟩, fun hrun => ?_,
    fun hrun => ?_⟩
  · exact ⟨s.memWrite a v, hostAct_load_of_held hheld a v, State.memRead_memWrite_same a v,
      fun _ => s.memRead_memWrite_ne v, rfl, rfl, rfl, rfl, rfl, rfl⟩
  · exact ⟨hostAct_start_of_free hfree, hostAct_load_of_free hfree⟩
  · have hend : s.ended = true := s.ended_iff.2 hrun
    exact ⟨hostAct_readState_of_ended hend, readState_of_ended hend⟩
  · have hend : s.ended = false := by simp [State.ended, hrun]
    exact hostAct_readState_of_not_ended hend

/-- Settles O2: START clears the hold, and what needs the hold is refused after it. -/
theorem resetHoldsUntilStart : Obligations.ResetHoldsUntilStart := by
  have hfree : State.reset.release.held = false := State.release_held _
  refine ⟨step_of_not_enabled rfl, State.reset.release, hostAct_start_of_held rfl, rfl, rfl, rfl, rfl, rfl, rfl,
    fun a v => ?_⟩
  exact ⟨hostAct_start_of_free hfree, hostAct_load_of_free hfree a v⟩

end Sys2Proof.Machine
end

section
/-!
PROOFS. The faults: what each records, that each is precise, and the order of a step's checks (60_exceptions.md rules R140
to R145).
-/

namespace Sys2Proof.Machine

/-- Fault entry records the cause's code, space and info (R144). -/
theorem State.finish_error (s : State) (e : FaultCause) :
    s.finish (.error e) = .next (s.faulted e.code e.spaceBit e.info) := rfl

/-- Settles O40, cause by cause. -/
theorem faultRecordsCause : Obligations.FaultRecordsCause :=
  fun s _ _ => ⟨s.finish_error (.invalidOpcode _), s.finish_error .invalidAluOperation,
    s.finish_error (.outOfBounds .memory _), s.finish_error (.outOfBounds .register _)⟩

theorem State.run_ne_faulted_of_enabled {s : State} (en : s.enabled = true) : s.run ≠ .faulted := by
  simp [(s.enabled_iff.1 en).1]

/-- Settles O43: of a step's outcomes only a raised fault is FAULTED, and raising writes the run state and the record. -/
theorem faultsArePrecise : Obligations.FaultsArePrecise := by
  intro s t en h hfaulted
  obtain ⟨hidle, -⟩ | ⟨-, e, -, rfl⟩ | ⟨-, i, -, -, rfl⟩ := step_outcomes h
  · cases hidle.symm.trans en
  · exact ⟨⟨rfl, rfl, rfl, rfl, rfl, rfl⟩, ⟨e, rfl⟩, rfl⟩
  · exact absurd hfaulted (effect_run_ne_faulted i (State.run_ne_faulted_of_enabled en))

/-! ### The opcode map as lists of bytes -/

/-- A byte selects an opcode exactly when it is one of the nine of the opcode map (R61). -/
theorem exists_opcodeByte_iff_mem (b : Byte) :
    (∃ op, b = opcodeByte op) ↔ b ∈ ([0x01, 0x82, 0x47, 0xA0, 0xA2, 0x45, 0x46, 0x50, 0x11] : List Byte) := by
  constructor
  · rintro ⟨op, rfl⟩
    cases op <;> decide
  · intro h
    have hmap : b ∈ ([.hlt, .ldi, .prn, .add, .mlt, .psh, .pop, .cll, .ret] : List Opcode).map opcodeByte := h
    obtain ⟨op, -, hop⟩ := List.mem_map.1 hmap
    exact ⟨op, hop.symm⟩

/-- The bytes R63 lists are those outside the opcode map. -/
theorem illegalByte_iff_notMem (b : Byte) :
    IllegalByte b ↔ b ∉ ([0x01, 0x82, 0x47, 0xA0, 0xA2, 0x45, 0x46, 0x50, 0x11] : List Byte) := by
  rw [illegalByte_iff_ne_opcodeByte, ← exists_opcodeByte_iff_mem, not_exists]

/-- Settles O41: a byte of R63's list selects no opcode. -/
theorem illegalOpcodeFaults : Obligations.IllegalOpcodeFaults :=
  ⟨illegalByte_iff_notMem, fun _ en hpc hbyte =>
    step_of_illegal en (Nat.lt_succ_of_le hpc) ((opcodeOf_eq_none_iff _).2 hbyte)⟩

/-- How many operands of an opcode are register indices: all but LDI's immediate (`REGOPS` of R82). -/
def nregs : Opcode → Nat
  | .hlt | .ret => 0
  | .ldi | .prn | .psh | .pop | .cll => 1
  | .add | .mlt => 2

theorem nregs_le_nops (op : Opcode) : nregs op ≤ nops op := by cases op <;> decide

/-- The register operands are the first operands. -/
theorem regOperands_eq_take (i : Instr) : i.regOperands = i.operands.take (nregs i.opcode) := by cases i <;> rfl

/-- The opcodes with an operand1, as R145 lists them. -/
theorem opcodeByte_mem_operand1 (op : Opcode) :
    opcodeByte op ∈ ([0x82, 0x47, 0xA0, 0xA2, 0x45, 0x46, 0x50] : List Byte) ↔ 1 ≤ nops op := by
  cases op <;> decide

/-- In every opcode with an operand1, it is a register index. -/
theorem one_le_nops_iff_one_le_nregs (op : Opcode) : 1 ≤ nops op ↔ 1 ≤ nregs op := by cases op <;> decide

/-- The opcodes with an operand2, as R145 lists them. -/
theorem opcodeByte_mem_operand2 (op : Opcode) : opcodeByte op ∈ ([0x82, 0xA0, 0xA2] : List Byte) ↔ 2 ≤ nops op := by
  cases op <;> decide

/-- The opcodes whose operand2 is a register index, as R145 lists them. -/
theorem opcodeByte_mem_register2 (op : Opcode) : opcodeByte op ∈ ([0xA0, 0xA2] : List Byte) ↔ 2 ≤ nregs op := by
  cases op <;> decide

/-! ### The order of the checks -/

/-- Where the opcode's operand bytes all lie below address 256, the fetch answers an instruction of that opcode, whose
register operands are the bytes after the pc (R82). -/
theorem State.fetch_of_operands_below {s : State} {op : Opcode} (hop : s.byteAfterPc 0 = opcodeByte op)
    (hend : s.pc.toNat + nops op ≤ 255) :
    ∃ i, s.fetch = .ok i ∧ i.opcode = op ∧
      i.regOperands = (List.range (nregs op)).map fun k => s.byteAfterPc (1 + k) := by
  have hsel : opcodeOf (s.memRead (BitVec.ofNat 8 s.pc.toNat)) = some op := (opcodeOf_eq_some_iff _ op).2 hop
  obtain ⟨hpc, -⟩ | ⟨-, hnone, -⟩ | ⟨-, op', hop', hend', -⟩ | ⟨-, i, hop', -, hops, hi⟩ := s.fetch_cases
  · omega
  · cases hsel.symm.trans hnone
  · cases hsel.symm.trans hop'
    omega
  · cases hsel.symm.trans hop'
    refine ⟨i, hi, rfl, ?_⟩
    rw [regOperands_eq_take, hops, ← List.map_take, List.take_range, Nat.min_eq_left (nregs_le_nops _)]
    simp only [State.byteAfterPc, Nat.add_assoc]

/-- The first bad one of up to two operand bytes: operand1 is checked before operand2 (R84). -/
theorem firstBad_map_range {n : Nat} (hn : n ≤ 2) (b : Nat → Byte) :
    firstBad ((List.range n).map b) =
      if 1 ≤ n ∧ 7 < (b 0).toNat then some (b 0) else if 2 ≤ n ∧ 7 < (b 1).toNat then some (b 1) else none := by
  have hnil : firstBad [] = none := rfl
  match n, hn with
  | 0, _ => simp [hnil]
  | 1, _ => simp [firstBad_cons, hnil, Nat.lt_iff_add_one_le]
  | 2, _ => simp [List.range_succ, firstBad_cons, hnil, Nat.lt_iff_add_one_le]

/-- Settles O44: the fetch's checks one by one, then the first bad register operand of the instruction fetched. -/
theorem faultPriority : Obligations.FaultPriority := by
  intro s en
  split
  · exact step_of_pc_above en ‹_›
  rename_i hpc
  split
  · rename_i hbyte
    exact illegalOpcodeFaults.2 s en (Nat.not_lt.1 hpc) ((illegalByte_iff_notMem _).2 hbyte)
  rename_i hbyte
  obtain ⟨op, hop⟩ := (exists_opcodeByte_iff_mem _).2 (not_not.1 hbyte)
  rw [hop]
  simp only [opcodeByte_mem_operand1, opcodeByte_mem_operand2, opcodeByte_mem_register2]
  split
  · exact step_of_operand_above en hop (by omega) (by omega)
  split
  · exact step_of_operand_above en hop (by omega) (by omega)
  have hle := nops_le_two op
  obtain ⟨i, hi, rfl, hregs⟩ := State.fetch_of_operands_below hop (by omega)
  have hbad := firstBad_map_range ((nregs_le_nops i.opcode).trans hle) fun k => s.byteAfterPc (1 + k)
  rw [← hregs] at hbad
  simp only [step_of_fetch_ok en hi, one_le_nops_iff_one_le_nregs]
  split
  · exact exec_of_firstBad s (hbad.trans (if_pos ‹_›))
  rename_i hreg1
  rw [if_neg hreg1] at hbad
  split
  · exact exec_of_firstBad s (hbad.trans (if_pos ‹_›))
  rename_i hreg2
  have hw : i.WellFormed := (firstBad_eq_none_iff _).1 (hbad.trans (if_neg hreg2))
  have hrun : (effect i s).run ≠ .faulted := effect_run_ne_faulted i (State.run_ne_faulted_of_enabled en)
  exact ⟨effect i s, exec_of_wellFormed s hw, hrun, effect_fault i s⟩

end Sys2Proof.Machine
end

section
/-!
PROOFS. The launch state, that a step always answers, and a PSH that overwrites its own operand byte
(70_reset_and_hazards.md rules R163, R165, R168, R169).
-/

namespace Sys2Proof.Machine

/-! ### Bytes placed in memory -/

theorem State.placeBytes_cons (s : State) {addr : Nat} (h : addr < 256) (b : Byte) (bs : List Byte) :
    s.placeBytes addr (b :: bs) = (s.memWrite (BitVec.ofNat 8 addr) b).placeBytes (addr + 1) bs := by
  simp only [State.placeBytes, s.memWriteAt_ok b h]

/-- Placing bytes changes the memory alone. -/
theorem State.placeBytes_eq_with_mem {s : State} {addr : Nat} {bs : List Byte} (h : addr + bs.length ≤ 256) :
    s.placeBytes addr bs = { s with mem := (s.placeBytes addr bs).mem } := by
  induction bs generalizing s addr with
  | nil => rfl
  | cons b bs ih =>
    rw [List.length_cons] at h
    rw [s.placeBytes_cons (by omega)]
    exact ih (s := s.memWrite (BitVec.ofNat 8 addr) b) (by omega)

/-- Placed bytes leave every cell outside their range. -/
theorem State.memRead_placeBytes_outside {s : State} {addr : Nat} {bs : List Byte} {a : Byte}
    (h : addr + bs.length ≤ 256) (ha : a.toNat < addr ∨ addr + bs.length ≤ a.toNat) :
    (s.placeBytes addr bs).memRead a = s.memRead a := by
  induction bs generalizing s addr with
  | nil => rfl
  | cons b bs ih =>
    rw [List.length_cons] at h ha
    have hne : a ≠ BitVec.ofNat 8 addr := by bv_omega
    rw [s.placeBytes_cons (by omega), ih (by omega) (by omega), s.memRead_memWrite_ne b hne]

/-- Each placed byte is in its cell: none is overwritten by those after it. -/
theorem State.memRead_placeBytes_getElem {s : State} {addr k : Nat} {bs : List Byte} (hm : s.mem.wf)
    (h : addr + bs.length ≤ 256) (hk : k < bs.length) :
    (s.placeBytes addr bs).memRead (BitVec.ofNat 8 (addr + k)) = bs[k] := by
  induction bs generalizing s addr k with
  | nil => cases hk
  | cons b bs ih =>
    rw [List.length_cons] at h hk
    rw [s.placeBytes_cons (by omega)]
    cases k with
    | zero =>
      have hbelow : (BitVec.ofNat 8 (addr + 0)).toNat < addr + 1 := by bv_omega
      rw [State.memRead_placeBytes_outside (by omega) (.inl hbelow)]
      exact State.memRead_memWrite_same _ b hm
    | succ k =>
      have hshift : addr + (k + 1) = addr + 1 + k := by omega
      rw [hshift]
      exact ih (s := s.memWrite (BitVec.ofNat 8 addr) b) (Memory.wf_write _ b hm) (by omega) (Nat.lt_of_succ_lt_succ hk)

/-! ### The launch state -/

/-- Under the hold, LOADs at rising addresses place their bytes there (R152, R163). -/
theorem loadFrom_of_held {s : State} {addr : Nat} {bs : List Byte} (held : s.held = true)
    (h : addr + bs.length ≤ 256) : loadFrom addr bs s = .next (s.placeBytes addr bs) := by
  induction bs generalizing s addr with
  | nil => rfl
  | cons b bs ih =>
    rw [List.length_cons] at h
    have hload : hostLoad (BitVec.ofNat 8 addr) b s = .next (s.memWrite (BitVec.ofNat 8 addr) b) :=
      hostAct_load_of_held held _ b
    simp only [loadFrom, hload]
    rw [s.placeBytes_cons (by omega)]
    exact ih held (by omega)

/-- An image that fits launches the reset state with the image at address 0, released (R165). -/
theorem launch_of_length_le {image : List Byte} (h : image.length ≤ 256) :
    launch image = .next (State.reset.placeBytes 0 image).release := by
  have hload : loadImage image State.reset = .next (State.reset.placeBytes 0 image) :=
    (if_pos h).trans (loadFrom_of_held rfl ((Nat.zero_add _).trans_le h))
  have held : (State.reset.placeBytes 0 image).held = true := by
    rw [State.placeBytes_eq_with_mem (by omega)]
    rfl
  simp only [launch, hload]
  exact hostAct_start_of_held held

/-- An image of more than 256 bytes does not fit (R163, decision D15). -/
theorem launch_of_lt_length {image : List Byte} (h : 256 < image.length) : launch image = .refused .imageTooLong := by
  have hload : loadImage image State.reset = .refused .imageTooLong := if_neg (Nat.not_le.2 h)
  simp only [launch, hload]

/-- Settles O5: the launch state is reset's but for the memory, where the cells below the image's length are the placed
bytes and the others are left as reset has them. -/
theorem launchStateHoldsImage : Obligations.LaunchStateHoldsImage := by
  refine fun image => ⟨fun h => ?_, launch_of_lt_length⟩
  have hfits : 0 + image.length ≤ 256 := by omega
  have hframe := State.placeBytes_eq_with_mem (s := State.reset) hfits
  refine ⟨_, launch_of_length_le h, rfl, (congrArg State.regs hframe :), (congrArg State.pc hframe :),
    (congrArg State.fault hframe :), (congrArg State.out hframe :), fun a => ?_⟩
  show (State.reset.placeBytes 0 image).memRead a = _
  split
  · rename_i ha
    have haddr : BitVec.ofNat 8 (0 + a.toNat) = a := by bv_omega
    have hget := State.memRead_placeBytes_getElem Memory.wf_reset hfits ha
    rwa [haddr] at hget
  · exact State.memRead_placeBytes_outside hfits (.inr (by omega))

/-! ### A step always answers -/

/-- Every step answers a next state, a fault's entry included (R144, R169). -/
theorem step_next (s : State) : ∃ t, step s = .next t := by
  cases en : s.enabled with
  | false => exact ⟨s, step_of_not_enabled en⟩
  | true =>
    cases hf : s.fetch with
    | error e => exact ⟨s.raise e, step_of_fetch_error en hf⟩
    | ok i =>
      rw [step_of_fetch_ok en hf]
      exact exec_next i s

/-- No step changes the hold, which only the host does (R152). -/
theorem held_of_step {s t : State} (h : step s = .next t) : t.held = s.held := by
  obtain ⟨-, rfl⟩ | ⟨-, e, -, rfl⟩ | ⟨-, i, -, -, rfl⟩ := step_outcomes h
  · rfl
  · rfl
  · exact effect_held i s

/-- Settles O15: the step of a free core answers a free state, and in one only HALTED and FAULTED enable no step. -/
theorem stepAlwaysAnswers : Obligations.StepAlwaysAnswers := by
  intro s en
  obtain ⟨t, ht⟩ := step_next s
  have hfree : t.held = false := (held_of_step ht).trans (s.enabled_iff.1 en).2
  refine ⟨t, ht, hfree, ?_⟩
  cases hrun : t.run with
  | running => exact .inl (t.enabled_iff.2 ⟨hrun, hfree⟩)
  | halted => exact .inr (.inl rfl)
  | faulted => exact .inr (.inr rfl)

/-! ### A PSH that overwrites its own operand byte -/

/-- The operands of the instruction fetched are the bytes after its opcode (R82). -/
theorem State.operands_of_fetch {s : State} {i : Instr} (h : s.fetch = .ok i) :
    i.operands = (List.range (nops i.opcode)).map fun k => s.byteAfterPc (1 + k) := by
  obtain ⟨-, hf⟩ | ⟨-, -, hf⟩ | ⟨-, _, -, -, hf⟩ | ⟨-, j, -, -, hops, hf⟩ := s.fetch_cases <;>
    rw [h] at hf <;> cases hf
  simp only [hops, State.byteAfterPc, Nat.add_assoc]

/-- Settles O39: the operand is latched by the fetch, so PSH's execute phase, whose cell here is that of the operand
byte, cannot change it. -/
theorem selfOverwritingPshCompletes : Obligations.SelfOverwritingPshCompletes := by
  intro s reg h hm en hdec hself
  have hlt : s.decSp.sp.toNat < 256 := s.decSp.sp.isLt
  have hlatched : [reg] = [s.byteAfterPc 1] := State.operands_of_fetch (State.fetch_of_decodesTo hdec)
  have haddr : BitVec.ofNat 8 (s.pc.toNat + 1) = s.decSp.sp := by
    rw [← hself, BitVec.ofNat_toNat, BitVec.setWidth_eq]
  obtain ⟨-, hexec, -⟩ := pshStoresBelowSp reg
  obtain ⟨t, ht, -, hsp, hcell, -, -, hpc, -⟩ := hexec h s hm (by omega)
  refine ⟨t, (stepRunsDecodedInstruction s _ en hdec).trans ht, (List.singleton_inj.1 hlatched).symm, hpc, ?_⟩
  rw [haddr, hcell, hsp]

end Sys2Proof.Machine
end
